-- ==== Sys2Proof/Word.lean ====
section
/-! DEFINITION. The widths of the core (00_scope.md R8, R10): a byte, a 32-bit word, a 128-bit port value.
Every value of the core is unsigned (R10); all arithmetic on data is exclusive-or and table lookup (R103, R104). -/

namespace Sys2Proof

/-- A byte, 8 bits (R10). -/
abbrev Byte := BitVec 8

/-- A word, 32 bits (R10): a key-schedule word or a round constant. -/
abbrev Word := BitVec 32

/-- A 128-bit port value (R14): a key or a block on `din`, a block on `dout`. -/
abbrev Block := BitVec 128

end Sys2Proof
end

