-- ==== Sys2Proof/Syntax.lean ====
section
/-! DEFINITION. The instructions of the core: one constructor for each of the 18 rows of spec/opcode_table.json. -/

namespace Sys2Proof

/-- The rows of the opcode table: the four host commands (format CMD32, R76), the eleven micro-operations (format UOP12,
R85) and the three combinational functions (format FUNC, no encoding, R87). A command's 128-bit operand is on the port
`din` when it is accepted (R75, R82), so it is no field here; NOP ignores `LEN` (R77), so it has none (R83). -/
inductive Instr where
  /-- NOP, R161. -/
  | nop
  /-- KEY_LOAD, R162, with the length field `LEN`. -/
  | keyLoad (len : BitVec 16)
  /-- ENCRYPT, R166, with the length field `LEN`. -/
  | encrypt (len : BitVec 16)
  /-- DECRYPT, R170, with the length field `LEN`. -/
  | decrypt (len : BitVec 16)
  /-- LOAD_KEY, R112. -/
  | loadKey
  /-- KEXP_WORD `#i`, R113, with the word index in the field `IDX`. -/
  | kexpWord (i : BitVec 6)
  /-- LOAD_STATE, R130. -/
  | loadState
  /-- ADDROUNDKEY `#r`, R132, with the round index in the field `IDX`. -/
  | addRoundKey (r : BitVec 6)
  /-- SUBBYTES, R134. -/
  | subBytes
  /-- INVSUBBYTES, R135. -/
  | invSubBytes
  /-- SHIFTROWS, R137. -/
  | shiftRows
  /-- INVSHIFTROWS, R138. -/
  | invShiftRows
  /-- MIXCOLUMNS, R140. -/
  | mixColumns
  /-- INVMIXCOLUMNS, R141. -/
  | invMixColumns
  /-- STORE_STATE, R131. -/
  | storeState
  /-- GFMUL, R100, a function of two bytes. -/
  | gfMul (a b : Byte)
  /-- ROTWORD, R110, a function of a word. -/
  | rotWord (w : Word)
  /-- SUBWORD, R111, a function of a word. -/
  | subWord (w : Word)
  deriving DecidableEq, Repr

end Sys2Proof
end

