-- ==== Sys2Proof/WellFormed.lean ====
section
/-! DEFINITION. Which instructions the spec admits: every field at a value that R77 or R85 calls legal. -/

namespace Sys2Proof

/-- Well-formedness. `LEN` may have any of its 65536 values (R77: a length other than 16 is an error response, not an
illegal encoding). `IDX` is bounded by R85: 4..43 for KEXP_WORD, 0..10 for ADDROUNDKEY. -/
def Instr.wf : Instr → Bool
  | .kexpWord i => decide (4 ≤ i.toNat) && decide (i.toNat ≤ 43)
  | .addRoundKey r => decide (r.toNat ≤ 10)
  | .nop | .keyLoad _ | .encrypt _ | .decrypt _ | .loadKey | .loadState | .subBytes | .invSubBytes | .shiftRows
  | .invShiftRows | .mixColumns | .invMixColumns | .storeState | .gfMul _ _ | .rotWord _ | .subWord _ => true

/-- The instruction has a code: it is a command or a micro-operation. The functions have none (R87). -/
def Instr.hasCode : Instr → Bool
  | .gfMul _ _ | .rotWord _ | .subWord _ => false
  | .nop | .keyLoad _ | .encrypt _ | .decrypt _ | .loadKey | .kexpWord _ | .loadState | .addRoundKey _ | .subBytes
  | .invSubBytes | .shiftRows | .invShiftRows | .mixColumns | .invMixColumns | .storeState => true

end Sys2Proof
end

