-- ==== Sys2Proof/Decode.lean ====
section
/-! DEFINITION. Decoding and encoding of the two formats, CMD32 (R75 to R79, R83) and UOP12 (R84 to R86), written from the
field tables of 30_encoding.md. Both decoders are total and reject by name. -/

namespace Sys2Proof

/-- Why a word spells no instruction. -/
inductive DecodeError where
  /-- CMD32: `RSVD = cmd_word[15:4]` is not 0 (R78). -/
  | reservedBits
  /-- CMD32: `OP` is one of 0x4..0xF (R79). -/
  | reservedOp
  /-- UOP12: `RSV2 = word[11:10]` is not 0 (R84, R86). -/
  | reservedBits2
  /-- UOP12: `UOP` is one of 0xB..0xF (R85, R86). -/
  | reservedUop
  /-- UOP12: `IDX` is outside the legal values of its micro-operation (R85, R86). -/
  | badIdx
  deriving DecidableEq, Repr

/-- A code word: a command word, which a host puts on `cmd_word`, or a micro-operation word, which is on no port. -/
inductive Code where
  | cmd (cw : BitVec 32)
  | uop (w : BitVec 12)
  deriving DecidableEq, Repr

/-! The fields of CMD32 (R75). -/

/-- `OP = cmd_word[3:0]`. -/
def cmdOp (cw : BitVec 32) : BitVec 4 := cw.extractLsb' 0 4
/-- `RSVD = cmd_word[15:4]`. -/
def cmdRsvd (cw : BitVec 32) : BitVec 12 := cw.extractLsb' 4 12
/-- `LEN = cmd_word[31:16]`. -/
def cmdLen (cw : BitVec 32) : BitVec 16 := cw.extractLsb' 16 16

/-! The fields of UOP12 (R84). -/

/-- `UOP = word[3:0]`. -/
def uopOp (w : BitVec 12) : BitVec 4 := w.extractLsb' 0 4
/-- `IDX = word[9:4]`. -/
def uopIdx (w : BitVec 12) : BitVec 6 := w.extractLsb' 4 6
/-- `RSV2 = word[11:10]`. -/
def uopRsv2 (w : BitVec 12) : BitVec 2 := w.extractLsb' 10 2

/-- R83: decoding a command word, total over all 2^32 of them. An error is the spec's `Illegal`. -/
def decodeCmd (cw : BitVec 32) : Except DecodeError Instr :=
  if cmdRsvd cw ≠ 0 then .error .reservedBits
  else match (cmdOp cw).toNat with
    | 0x0 => .ok .nop
    | 0x1 => .ok (.keyLoad (cmdLen cw))
    | 0x2 => .ok (.encrypt (cmdLen cw))
    | 0x3 => .ok (.decrypt (cmdLen cw))
    | _ => .error .reservedOp

/-- R85: a micro-operation that takes no index has `IDX = 0`. -/
def noIdx (idx : BitVec 6) (i : Instr) : Except DecodeError Instr :=
  if idx = 0 then .ok i else .error .badIdx

/-- R85: an index is legal where the instruction it makes is well formed. -/
def withIdx (i : Instr) : Except DecodeError Instr :=
  if i.wf then .ok i else .error .badIdx

/-- R84 to R86: decoding a micro-operation word, total over all 2^12 of them. An error "spells no micro-operation". -/
def decodeUop (w : BitVec 12) : Except DecodeError Instr :=
  if uopRsv2 w ≠ 0 then .error .reservedBits2
  else match (uopOp w).toNat with
    | 0x0 => noIdx (uopIdx w) .loadKey
    | 0x1 => withIdx (.kexpWord (uopIdx w))
    | 0x2 => noIdx (uopIdx w) .loadState
    | 0x3 => withIdx (.addRoundKey (uopIdx w))
    | 0x4 => noIdx (uopIdx w) .subBytes
    | 0x5 => noIdx (uopIdx w) .invSubBytes
    | 0x6 => noIdx (uopIdx w) .shiftRows
    | 0x7 => noIdx (uopIdx w) .invShiftRows
    | 0x8 => noIdx (uopIdx w) .mixColumns
    | 0x9 => noIdx (uopIdx w) .invMixColumns
    | 0xA => noIdx (uopIdx w) .storeState
    | _ => .error .reservedUop

/-- Decoding of either format. -/
def decode : Code → Except DecodeError Instr
  | .cmd cw => decodeCmd cw
  | .uop w => decodeUop w

/-- R89: `cmd_word = {LEN, 0x000, OP}`. -/
def cmdCode (len : BitVec 16) (op : BitVec 4) : Code := .cmd (len ++ (0 : BitVec 12) ++ op)

/-- R90: `UOP12 = {00, IDX[5:0], UOP[3:0]}`. -/
def uopCode (idx : BitVec 6) (op : BitVec 4) : Code := .uop ((0 : BitVec 2) ++ idx ++ op)

/-- The code word of an instruction, from R76, R85, R89 and R90; `none` for the functions, which have none (R87). The
`LEN` of a NOP, which R77 says is ignored, is encoded as 0 (R92). -/
def encode : Instr → Option Code
  | .nop => some (cmdCode 0 0x0)
  | .keyLoad len => some (cmdCode len 0x1)
  | .encrypt len => some (cmdCode len 0x2)
  | .decrypt len => some (cmdCode len 0x3)
  | .loadKey => some (uopCode 0 0x0)
  | .kexpWord i => some (uopCode i 0x1)
  | .loadState => some (uopCode 0 0x2)
  | .addRoundKey r => some (uopCode r 0x3)
  | .subBytes => some (uopCode 0 0x4)
  | .invSubBytes => some (uopCode 0 0x5)
  | .shiftRows => some (uopCode 0 0x6)
  | .invShiftRows => some (uopCode 0 0x7)
  | .mixColumns => some (uopCode 0 0x8)
  | .invMixColumns => some (uopCode 0 0x9)
  | .storeState => some (uopCode 0 0xA)
  | .gfMul _ _ | .rotWord _ | .subWord _ => none

/-- One row of spec/opcode_table.json that has a code: the bits that are fixed and their values. -/
structure TableRow where
  mnemonic : String
  mask : Code
  value : Code
  deriving DecidableEq, Repr

/-- The rows of the opcode table that have a code, as the table gives their `mask` and `match`. -/
def opcodeTable : List TableRow :=
  [⟨"NOP", .cmd 0x0000FFFF, .cmd 0x00000000⟩, ⟨"KEY_LOAD", .cmd 0x0000FFFF, .cmd 0x00000001⟩,
   ⟨"ENCRYPT", .cmd 0x0000FFFF, .cmd 0x00000002⟩, ⟨"DECRYPT", .cmd 0x0000FFFF, .cmd 0x00000003⟩] ++
  [⟨"LOAD_KEY", .uop 0xC0F, .uop 0x000⟩, ⟨"KEXP_WORD", .uop 0xC0F, .uop 0x001⟩,
   ⟨"LOAD_STATE", .uop 0xC0F, .uop 0x002⟩, ⟨"ADDROUNDKEY", .uop 0xC0F, .uop 0x003⟩,
   ⟨"SUBBYTES", .uop 0xC0F, .uop 0x004⟩, ⟨"INVSUBBYTES", .uop 0xC0F, .uop 0x005⟩,
   ⟨"SHIFTROWS", .uop 0xC0F, .uop 0x006⟩, ⟨"INVSHIFTROWS", .uop 0xC0F, .uop 0x007⟩] ++
  [⟨"MIXCOLUMNS", .uop 0xC0F, .uop 0x008⟩, ⟨"INVMIXCOLUMNS", .uop 0xC0F, .uop 0x009⟩,
   ⟨"STORE_STATE", .uop 0xC0F, .uop 0x00A⟩]

/-- A row takes a code word: same format, and the fixed bits have the row's values. -/
def TableRow.takes (row : TableRow) (c : Code) : Bool :=
  match row.mask, row.value, c with
  | .cmd m, .cmd v, .cmd cw => cw &&& m == v
  | .uop m, .uop v, .uop w => w &&& m == v
  | _, _, _ => false

/-- The mnemonic of an instruction, as spec/opcode_table.json spells it. -/
def Instr.mnemonic : Instr → String
  | .nop => "NOP"
  | .keyLoad _ => "KEY_LOAD"
  | .encrypt _ => "ENCRYPT"
  | .decrypt _ => "DECRYPT"
  | .loadKey => "LOAD_KEY"
  | .kexpWord _ => "KEXP_WORD"
  | .loadState => "LOAD_STATE"
  | .addRoundKey _ => "ADDROUNDKEY"
  | .subBytes => "SUBBYTES"
  | .invSubBytes => "INVSUBBYTES"
  | .shiftRows => "SHIFTROWS"
  | .invShiftRows => "INVSHIFTROWS"
  | .mixColumns => "MIXCOLUMNS"
  | .invMixColumns => "INVMIXCOLUMNS"
  | .storeState => "STORE_STATE"
  | .gfMul _ _ => "GFMUL"
  | .rotWord _ => "ROTWORD"
  | .subWord _ => "SUBWORD"

/-- Which format a table word of `nbits` bits is in (DESIGN CHOICE, log 12): the table gives UOP12 rows 12 bits, two
bytes, CMD32 rows 32 bits, and the functions none (R87). A word too wide for its format spells nothing. -/
def tableCode (nbits w : Nat) : Option Code :=
  if nbits = 0 then none
  else if nbits ≤ 16 then if w < 2 ^ 12 then some (.uop (BitVec.ofNat 12 w)) else none
  else if w < 2 ^ 32 then some (.cmd (BitVec.ofNat 32 w)) else none

/-- The instruction the decoder reads from a table word, bit 0 its least significant bit. -/
def decodeTableWord (nbits w : Nat) : Option Instr :=
  match tableCode nbits w with
  | none => none
  | some c => match decode c with
    | .ok i => some i
    | .error _ => none

end Sys2Proof
end

