-- ==== Sys2Proof/Machine/State.lean ====
section
/-! DEFINITION. The state of the core (10_state.md R20 to R27, R36), the host that drives its ports (R18, R28), and the
reasons a step can stop (R86, R208). Everything is plain data. -/

namespace Sys2Proof.Machine

/-- R24: which pipeline is running. -/
inductive Phase where
  | idle | keyexp | enc | dec
  deriving DecidableEq, Repr

/-- R80, R81: the five status values. -/
inductive Status where
  | ok | invalidKeyLength | invalidBlockLength | noKey | illegalCommand
  deriving DecidableEq, Repr

/-- R27: the contents of the response register. `data` is the spec's own "block or `none`". -/
structure Response where
  status : Status
  data : Option Block
  deriving DecidableEq, Repr

/-- R12, R23: the 4 x 4 byte array, as four rows of four bytes: `s[r][c]`. -/
abbrev StateArr := Vector (Vector Byte 4) 4

/-- R21, R55: the key-schedule store, 44 cells that hold a word or `none`. -/
abbrev KeyStore := Vector (Option Word) 44

/-- The result of a micro-operation or function that produces a value and writes no element of R20: STORE_STATE a block
(R131), GFMUL a byte (R100), ROTWORD and SUBWORD a word (R110, R111). DESIGN CHOICE, log 4. -/
inductive OutValue where
  | byte (b : Byte)
  | word (w : Word)
  | block (b : Block)
  deriving DecidableEq, Repr

/-- What the host drives on the input ports of R28 in one step. With `hold` it keeps driving an offer until the core
accepts it (R237); without, it drives it for one step. DESIGN CHOICE, log 2. -/
structure HostDrive where
  rst : Bool
  cmdValid : Bool
  cmdWord : BitVec 32
  din : Block
  hold : Bool
  deriving DecidableEq, Repr

/-- The host offers nothing and asserts no reset. -/
def HostDrive.quiet : HostDrive := ⟨false, false, 0, 0, false⟩

/-- Why the machine stops with a fault: the model faults of R208. "No reachable state produces any of them", and none is
a behaviour of the core, so each is safe. -/
inductive Fault where
  /-- Raised by KEXP_WORD and ADDROUNDKEY, and the steps that run them, on reading `W[i] = none`: "A model reads a `none`
  cell as a fault" (R21; R15, R208, D16, I3, I4). Safe. -/
  | noneKeyWord (i : Nat)
  /-- Raised by every micro-operation that reads `st`, and the steps that run them: one "that finds `st = none` is a model
  fault" (42_state_transforms.md; R15, R208, D16, I5). Safe. -/
  | noneState
  /-- Raised by `ADVANCE` on reading `ctr = none` while `phase` is not IDLE (R208). Safe. -/
  | noneCounter
  /-- Raised by `ADVANCE` at a `(phase, ctr)` outside the table of R177 (R177, R208). Safe. -/
  | badSequence
  deriving DecidableEq, Repr

/-- Why the machine gives an instruction no meaning. -/
inductive Refusal where
  /-- Raised by `exec` alone, for an instruction that has no meaning yet. Safe. -/
  | notModelled (mnemonic : String)
  /-- Raised by `step` on a micro-operation word outside R85, and by KEXP_WORD and ADDROUNDKEY on an index outside R85:
  "spells no micro-operation" (R86). The hardware forms no such word and has no behaviour for it. Safe. -/
  | spellsNoMicroOperation
  deriving DecidableEq, Repr

/-- The state: the six elements of R20, then the model's own three fields. -/
structure State where
  /-- R21, R55: the key-schedule store `W[0..43]`. -/
  W : KeyStore
  /-- R22: `key_valid`. -/
  keyValid : Bool
  /-- R23: the working state `st`, or `none`. -/
  st : Option StateArr
  /-- R24: the phase. -/
  phase : Phase
  /-- R25: the 6-bit counter, or `none`. -/
  ctr : Option (BitVec 6)
  /-- R27: the response register, or `none`. -/
  rsp : Option Response
  /-- The model's own: the value that STORE_STATE or a function produced when it was run alone (log 4). -/
  out : Option OutValue
  /-- The model's own: a micro-operation word to be run alone (log 5). No step of the core fills it. -/
  uopSlot : Option (BitVec 12)
  /-- The model's own: what the host will drive on the input ports, the present step first (log 2). -/
  host : List HostDrive
  deriving DecidableEq, Repr

/-- R36, R230: the state after reset; the host offers nothing (log 2, log 11). -/
def State.reset : State where
  W := Vector.replicate 44 none
  keyValid := false
  st := none
  phase := .idle
  ctr := none
  rsp := none
  out := none
  uopSlot := none
  host := []

end Sys2Proof.Machine
end

