-- ==== Sys2Proof/Machine/Operands.lean ====
section
/-! DEFINITION. Byte numbering and operand assembly: bytes of words and ports (00_scope.md R12 to R14), the key and block
operands on `din` (30_encoding.md R82), and the input ports themselves (10_state.md R28). -/

namespace Sys2Proof.Machine

/-! ### Bytes of words and of port values -/

/-- R13: byte `j` of a word is `w[31-8j : 24-8j]`; byte 0 is the most significant. -/
def wordByte (w : Word) (j : Nat) : Byte := w.extractLsb' (24 - 8 * j) 8

/-- R13: `word(b0, b1, b2, b3)`, four bytes packed big-endian. -/
def packWord (b0 b1 b2 b3 : Byte) : Word := b0 ++ b1 ++ b2 ++ b3

/-- R14: byte `i` of a 128-bit port value is `v[127-8i : 120-8i]`; byte 0 is the most significant. -/
def portByte (v : Block) (i : Nat) : Byte := v.extractLsb' (120 - 8 * i) 8

/-- The four words `w0, w1, w2, w3` side by side, `w0` most significant (R60: `{W[0], W[1], W[2], W[3]}`). -/
def packWords (w0 w1 w2 w3 : Word) : Block := w0 ++ w1 ++ w2 ++ w3

/-- The port value whose byte `i` is `f i`, for `i` in 0..15 (R14). -/
def packBlock (f : Nat → Byte) : Block :=
  packWords (packWord (f 0) (f 1) (f 2) (f 3)) (packWord (f 4) (f 5) (f 6) (f 7))
    (packWord (f 8) (f 9) (f 10) (f 11)) (packWord (f 12) (f 13) (f 14) (f 15))

/-! ### The 4 x 4 byte array -/

/-- R12: the byte `s[r][c]`. -/
def StateArr.byteAt (a : StateArr) (r c : Fin 4) : Byte := a[r][c]

/-- The array whose byte at row `r`, column `c` is `f r c`. Every transform of 42_state_transforms.md writes all 16 bytes
from the old ones (R143), so each is one call of this. -/
def StateArr.build (f : Fin 4 → Fin 4 → Byte) : StateArr :=
  #v[#v[f 0 0, f 0 1, f 0 2, f 0 3], #v[f 1 0, f 1 1, f 1 2, f 1 3],
     #v[f 2 0, f 2 1, f 2 2, f 2 3], #v[f 3 0, f 3 1, f 3 2, f 3 3]]

/-- R12, R130: block byte `i` is `s[i mod 4][i div 4]`, so `s[r][c]` is byte `4c + r`. -/
def blockToState (b : Block) : StateArr :=
  StateArr.build fun r c => portByte b (4 * c.val + r.val)

/-- R12, R131: byte `i` of the block is `s[i mod 4][i div 4]`. -/
def stateToBlock (a : StateArr) : Block :=
  packBlock fun i => a.byteAt (Fin.ofNat 4 (i % 4)) (Fin.ofNat 4 (i / 4))

/-! ### The operands of the commands (R82) and of LOAD_KEY (R112) -/

/-- R59, R112: key word `i` is `word(key[4i], key[4i+1], key[4i+2], key[4i+3])`, with `key[k] = byte_k(din)`. -/
def keyWord (din : Block) (i : Nat) : Word :=
  packWord (portByte din (4 * i)) (portByte din (4 * i + 1)) (portByte din (4 * i + 2)) (portByte din (4 * i + 3))

/-- R77: the only length KEY_LOAD, ENCRYPT and DECRYPT accept. -/
def validLen : BitVec 16 := 16

/-! ### The input ports (R28) -/

/-- What the host drives on the input ports in this step. -/
def State.ports (s : State) : HostDrive := s.host.headD HostDrive.quiet

/-- The value on the port `din` (R28). -/
def State.din (s : State) : Block := s.ports.din

/-- The step uses up what the host drove. -/
def State.popHost (s : State) : State := { s with host := s.host.tail }

/-- A step that accepts nothing: an offer the host holds stays on the ports (R237), anything else is used up. -/
def State.waitHost (s : State) : State :=
  if s.ports.cmdValid && s.ports.hold then s else s.popHost

end Sys2Proof.Machine
end

