-- ==== Sys2Proof/Machine/Ops.lean ====
section
/-! DEFINITION. The shared operations over the elements of R20: sequencing, reads that fault on `none` (R208), writes of
`W`, the response (R15, R27) and raising an error (R200), which is all the core has for an exception. -/

namespace Sys2Proof.Machine

/-- The outcome of a step or of a meaning. -/
abbrev Result := Host.Outcome State Fault Refusal

/-- R65: one operation after another, each seeing what the one before wrote; a stop is final. -/
def andThen (o : Result) (k : State → Result) : Result :=
  match o with
  | .next s => k s
  | .fault f => .fault f
  | .refused r => .refused r

/-- Reads the key-schedule word `W[i]` (R15, R55). A cell that holds `none` is a model fault (R15, R21, R208, I3, I4); so is
an index of 44 or more, which no rule forms (R55). -/
def withW (i : Nat) (s : State) (k : Word → Result) : Result :=
  match s.W[i]? with
  | some (some w) => k w
  | _ => .fault (.noneKeyWord i)

/-- Reads the working state (R15, R23); `none` is a model fault (42_state_transforms.md, R15, R208, I5). -/
def withSt (s : State) (k : StateArr → Result) : Result :=
  match s.st with
  | some a => k a
  | none => .fault .noneState

/-- A micro-operation that writes `st` from its old value (42_state_transforms.md). -/
def mapSt (f : StateArr → StateArr) (s : State) : Result :=
  withSt s fun a => .next { s with st := some (f a) }

/-- R15, R55: `W[i] <- v`. -/
def State.writeW (s : State) (i : Nat) (v : Word) : State :=
  { s with W := s.W.setIfInBounds i (some v) }

/-- R56: reads round key `r`, the words `W[4r], W[4r+1], W[4r+2], W[4r+3]`. -/
def withRoundKey (r : Nat) (s : State) (k : Vector Word 4 → Result) : Result :=
  withW (4 * r) s fun k0 => withW (4 * r + 1) s fun k1 => withW (4 * r + 2) s fun k2 => withW (4 * r + 3) s fun k3 =>
    k #v[k0, k1, k2, k3]

/-- R15, R27: `respond(status, data)`. -/
def State.respond (s : State) (status : Status) (data : Option Block) : State :=
  { s with rsp := some ⟨status, data⟩ }

/-- R15, R200: `raise E`, the one way the core takes an error: `respond(E, none)`, `phase` stays IDLE, nothing else
changes. There is no trap, saved state, mode change or vector (R210), and no return from one (R211). -/
def raise (e : Status) (s : State) : Result := .next (s.respond e none)

/-- R26, R27, R160: the frame of every accept step. It is enabled only while `phase = IDLE`, and its first action is
`rsp <- none`. A command offered in another phase is not accepted and nothing records it (R237): log 6. -/
def accept (s : State) (k : State → Result) : Result :=
  if s.phase = .idle then k { s with rsp := none } else .next s

/-- R160: the step used up what the host drove. -/
def andPopHost (o : Result) : Result := andThen o fun s => .next s.popHost

/-- R160, R237: the step accepted nothing. -/
def andWaitHost (o : Result) : Result := andThen o fun s => .next s.waitHost

end Sys2Proof.Machine
end

