-- ==== Sys2Proof/Machine/Flags.lean ====
section
/-! DEFINITION. The core has no condition flags (R16, R32); this file holds the encodings of what is flag-like, the status
codes (R80) and the phase (R24), and the output ports (R26 to R28, R33), which are functions of the state. -/

namespace Sys2Proof.Machine

/-- R80: the status codes in `rsp_status`. Codes 5 to 7 are never produced (R81). -/
def Status.code : Status → BitVec 3
  | .ok => 0
  | .invalidKeyLength => 1
  | .invalidBlockLength => 2
  | .noKey => 3
  | .illegalCommand => 4

/-- R24: the encoding of `phase`. -/
def Phase.code : Phase → BitVec 2
  | .idle => 0
  | .keyexp => 1
  | .enc => 2
  | .dec => 3

/-- R26: `cmd_ready = (phase = IDLE)`. -/
def State.cmdReady (s : State) : Bool := decide (s.phase = .idle)

/-- R28: `rsp_valid` is 1 when `rsp` is not `none`. -/
def State.rspValid (s : State) : Bool := s.rsp.isSome

/-- R28: `rsp_status` when `rsp_valid = 1`; otherwise the port has no value. -/
def State.rspStatus (s : State) : Option (BitVec 3) := s.rsp.map fun r => r.status.code

/-- R28: `dout` when `rsp_valid = 1` and the response has data; otherwise the port has no value. -/
def State.dout (s : State) : Option Block := s.rsp.bind fun r => r.data

end Sys2Proof.Machine
end

