-- ==== Sys2Proof/Machine/Field.lean ====
section
/-! DEFINITION. The GF(2^8) multiplier (40_field_arithmetic.md) and the meaning of GFMUL. -/

namespace Sys2Proof.Machine

/-- The doubling step of the loop of R100: shift left by one, masked to 8 bits; if the bit shifted out was set, xor
`0x1b`. It is `GFMUL(0x02, a)` (R102). -/
def xtime (a : Byte) : Byte := (a <<< 1) ^^^ (if a.getLsbD 7 then 0x1b else 0x00)

/-- R100: `n` iterations of the loop, on the accumulator and both operands. -/
def gfMulLoop : Nat → Byte → Byte → Byte → Byte
  | 0, acc, _, _ => acc
  | n + 1, acc, a, b => gfMulLoop n (if b.getLsbD 0 then acc ^^^ a else acc) (xtime a) (b >>> 1)

/-- R100: multiplication in GF(2^8), "repeat 8 times". -/
def gfmul (a b : Byte) : Byte := gfMulLoop 8 0x00 a b

/-- GFMUL (R100): a combinational function, total over all pairs of bytes; it raises nothing and writes no element of R20.
Its result stands in `out` (log 4, log 8). -/
def execGfMul (a b : Byte) (s : State) : Result := .next { s with out := some (.byte (gfmul a b)) }

end Sys2Proof.Machine
end

