-- ==== Sys2Proof/Machine/KeySchedule.lean ====
section
/-! DEFINITION. The key-expansion engine (41_key_schedule.md): ROTWORD, SUBWORD, LOAD_KEY, KEXP_WORD and KEYEXPAND. -/

namespace Sys2Proof.Machine

/-- R110: `{w[23:0], w[31:24]}`. -/
def rotword (w : Word) : Word := w.extractLsb' 0 24 ++ w.extractLsb' 24 8

/-- R111: the S-box on each of the four bytes. -/
def subword (w : Word) : Word :=
  packWord (sbox (wordByte w 0)) (sbox (wordByte w 1)) (sbox (wordByte w 2)) (sbox (wordByte w 3))

/-- R113: the `temp` that KEXP_WORD `#i` xors into `W[i-4]`, from `t = W[i-1]`. -/
def kexpTemp (i : Nat) (t : Word) : Word :=
  if i % 4 = 0 then subword (rotword t) ^^^ rcon (i / 4 - 1) else t

/-- R112: `W[0..3]` from the key on `din`. -/
def loadKeyWords (din : Block) (W : KeyStore) : KeyStore :=
  (List.range 4).foldl (fun acc i => acc.setIfInBounds i (some (keyWord din i))) W

/-- R163: `for k in 4..43: W[k] <- none`. -/
def discardWords (W : KeyStore) : KeyStore :=
  (List.range 40).foldl (fun acc k => acc.setIfInBounds (k + 4) none) W

/-- R114: one word of the expansion, appended to the words before it. -/
def expandStep (ws : List Word) (i : Nat) : List Word :=
  ws ++ [ws.getD (i - 4) 0 ^^^ kexpTemp i (ws.getD (i - 1) 0)]

/-- R114: KEYEXPAND, the whole expansion as a pure function: words 0..3 are the key's, then word `i` for `i = 4, ..., 43`
in increasing order. -/
def keyExpand (key : Block) : List Word :=
  (List.range' 4 40).foldl expandStep [keyWord key 0, keyWord key 1, keyWord key 2, keyWord key 3]

/-- ROTWORD (R110): a combinational function; its result stands in `out` (log 4, log 8). -/
def execRotWord (w : Word) (s : State) : Result := .next { s with out := some (.word (rotword w)) }

/-- SUBWORD (R111): a combinational function; its result stands in `out` (log 4, log 8). -/
def execSubWord (w : Word) (s : State) : Result := .next { s with out := some (.word (subword w)) }

/-- LOAD_KEY (R112): writes key words 0..3 from the 16-byte key on `din`; reads nothing from `W`. -/
def execLoadKey (s : State) : Result := .next { s with W := loadKeyWords s.din s.W }

/-- KEXP_WORD `#i` (R113): `W[i] <- W[i-4] xor temp`, for `i` in 4..43. Another index spells no micro-operation (R85,
R86): log 7. -/
def execKexpWord (i : BitVec 6) (s : State) : Result :=
  if 4 ≤ i.toNat ∧ i.toNat ≤ 43 then
    withW (i.toNat - 1) s fun t => withW (i.toNat - 4) s fun p => .next (s.writeW i.toNat (p ^^^ kexpTemp i.toNat t))
  else .refused .spellsNoMicroOperation

end Sys2Proof.Machine
end

