-- ==== Sys2Proof/Machine/Transforms.lean ====
section
/-! DEFINITION. The state transforms (42_state_transforms.md R130 to R141): first each as a pure function of the byte
array, in the notation `s[r][c]` of R12, then the meaning of its micro-operation. -/

namespace Sys2Proof.Machine

/-- R132: `s'[j][c] <- s[j][c] xor W[4r + c][31-8j : 24-8j]`, with `ks[c] = W[4r + c]`. -/
def addRoundKey (ks : Vector Word 4) (a : StateArr) : StateArr :=
  StateArr.build fun j c => a.byteAt j c ^^^ wordByte ks[c] j.val

/-- R134: `s'[r][c] <- SBOX[s[r][c]]`. -/
def subBytes (a : StateArr) : StateArr := StateArr.build fun r c => sbox (a.byteAt r c)

/-- R135: `s'[r][c] <- INVSBOX[s[r][c]]`. -/
def invSubBytes (a : StateArr) : StateArr := StateArr.build fun r c => invSbox (a.byteAt r c)

/-- R137: `s'[r][c] <- s[r][(c + r) mod 4]`. Addition in `Fin 4` is modulo 4. -/
def shiftRows (a : StateArr) : StateArr := StateArr.build fun r c => a.byteAt r (c + r)

/-- R138: `s'[r][c] <- s[r][(c - r) mod 4]`. Subtraction in `Fin 4` is modulo 4, in 0..3 (R104). -/
def invShiftRows (a : StateArr) : StateArr := StateArr.build fun r c => a.byteAt r (c - r)

/-- R140: the matrix of MIXCOLUMNS. -/
def mixMatrix : StateArr :=
  #v[#v[0x02, 0x03, 0x01, 0x01], #v[0x01, 0x02, 0x03, 0x01], #v[0x01, 0x01, 0x02, 0x03], #v[0x03, 0x01, 0x01, 0x02]]

/-- R141: the matrix of INVMIXCOLUMNS. -/
def invMixMatrix : StateArr :=
  #v[#v[0x0e, 0x0b, 0x0d, 0x09], #v[0x09, 0x0e, 0x0b, 0x0d], #v[0x0d, 0x09, 0x0e, 0x0b], #v[0x0b, 0x0d, 0x09, 0x0e]]

/-- R140, R141: `s'[r][c]` is the sum over `k` of `GFMUL(M[r][k], s[k][c])`; addition is xor (R103). -/
def mulMatrix (m a : StateArr) : StateArr :=
  StateArr.build fun r c =>
    gfmul (m.byteAt r 0) (a.byteAt 0 c) ^^^ gfmul (m.byteAt r 1) (a.byteAt 1 c) ^^^
      gfmul (m.byteAt r 2) (a.byteAt 2 c) ^^^ gfmul (m.byteAt r 3) (a.byteAt 3 c)

/-- R140. -/
def mixColumns (a : StateArr) : StateArr := mulMatrix mixMatrix a

/-- R141. -/
def invMixColumns (a : StateArr) : StateArr := mulMatrix invMixMatrix a

/-- STORE_STATE as a step uses it: `out <- STORE_STATE` (R131, R169, R173). -/
def withBlock (s : State) (k : Block → Result) : Result := withSt s fun a => k (stateToBlock a)

/-- LOAD_STATE (R130): `st` from the block on `din`, all 16 bytes. -/
def execLoadState (s : State) : Result := .next { s with st := some (blockToState s.din) }

/-- STORE_STATE (R131): reads `st` and produces the block `out`; writes no element of R20 (log 4). -/
def execStoreState (s : State) : Result := withBlock s fun b => .next { s with out := some (.block b) }

/-- ADDROUNDKEY `#r` (R132), for `r` in 0..10. Another index spells no micro-operation (R85, R86): log 7. -/
def execAddRoundKey (r : BitVec 6) (s : State) : Result :=
  if r.toNat ≤ 10 then
    withSt s fun a => withRoundKey r.toNat s fun ks => .next { s with st := some (addRoundKey ks a) }
  else .refused .spellsNoMicroOperation

/-- SUBBYTES (R134). -/
def execSubBytes (s : State) : Result := mapSt subBytes s

/-- INVSUBBYTES (R135). -/
def execInvSubBytes (s : State) : Result := mapSt invSubBytes s

/-- SHIFTROWS (R137). -/
def execShiftRows (s : State) : Result := mapSt shiftRows s

/-- INVSHIFTROWS (R138). -/
def execInvShiftRows (s : State) : Result := mapSt invShiftRows s

/-- MIXCOLUMNS (R140). -/
def execMixColumns (s : State) : Result := mapSt mixColumns s

/-- INVMIXCOLUMNS (R141). -/
def execInvMixColumns (s : State) : Result := mapSt invMixColumns s

end Sys2Proof.Machine
end

