-- ==== Sys2Proof/Machine/Driver.lean ====
section
/-! DEFINITION. The cipher driver (43_cipher_driver.md): the accept steps of the four commands, the internal steps that
`ADVANCE` selects by `(phase, ctr)` (R177), the micro-operations each step runs (95_test_vectors.md P5), and the composed
functions ENC_BLOCK and DEC_BLOCK (R174, R175). -/

namespace Sys2Proof.Machine

/-! ### Accept steps -/

/-- R163: KEYLOAD_START, the accept step of a valid KEY_LOAD. -/
def keyLoadStart (s : State) : Result :=
  andThen (execLoadKey { s with keyValid := false }) fun s =>
    .next { s with W := discardWords s.W, ctr := some 4, phase := .keyexp }

/-- R167: ENC_START, the accept step of a valid ENCRYPT. -/
def encStart (s : State) : Result :=
  andThen (execLoadState s) fun s => andThen (execAddRoundKey 0 s) fun s =>
    .next { s with ctr := some 1, phase := .enc }

/-- R171: DEC_START, the accept step of a valid DECRYPT. -/
def decStart (s : State) : Result :=
  andThen (execLoadState s) fun s => andThen (execAddRoundKey 10 s) fun s =>
    .next { s with ctr := some 9, phase := .dec }

/-- NOP (R161): `rsp <- none; respond(OK, none)`. -/
def execNop (s : State) : Result := accept s fun s => .next (s.respond .ok none)

/-- KEY_LOAD (R162): the length check, then R163. -/
def execKeyLoad (len : BitVec 16) (s : State) : Result :=
  accept s fun s => if len ≠ validLen then raise .invalidKeyLength s else keyLoadStart s

/-- ENCRYPT (R166): NO_KEY before INVALID_BLOCK_LENGTH (R206), then R167. -/
def execEncrypt (len : BitVec 16) (s : State) : Result :=
  accept s fun s =>
    if s.keyValid = false then raise .noKey s
    else if len ≠ validLen then raise .invalidBlockLength s
    else encStart s

/-- DECRYPT (R170): NO_KEY before INVALID_BLOCK_LENGTH (R206), then R171. -/
def execDecrypt (len : BitVec 16) (s : State) : Result :=
  accept s fun s =>
    if s.keyValid = false then raise .noKey s
    else if len ≠ validLen then raise .invalidBlockLength s
    else decStart s

/-- R205: the accept step of a command word whose decode is Illegal. It is on every path of ACCEPT (R160), whatever `LEN`,
`din` and `key_valid` are. -/
def illegalCommand (s : State) : Result := accept s (raise .illegalCommand)

/-! ### Internal steps -/

/-- R164: the KEXP step at `ctr = i`, for `i` in 4..42. -/
def kexpStep (i : BitVec 6) (s : State) : Result :=
  andThen (execKexpWord i s) fun s => .next { s with ctr := some (i + 1) }

/-- R165: the final KEXP step. -/
def kexpFinal (s : State) : Result :=
  andThen (execKexpWord 43 s) fun s =>
    .next ({ s with ctr := none, phase := .idle, keyValid := true }.respond .ok none)

/-- R168: the ENC round step at `ctr = r`, for `r` in 1..9. -/
def encRound (r : BitVec 6) (s : State) : Result :=
  andThen (execSubBytes s) fun s => andThen (execShiftRows s) fun s => andThen (execMixColumns s) fun s =>
    andThen (execAddRoundKey r s) fun s => .next { s with ctr := some (r + 1) }

/-- The end of a cipher command (R169, R173): `out <- STORE_STATE; st <- none; ctr <- none; phase <- IDLE;
respond(OK, out)`. -/
def finishBlock (s : State) : Result :=
  withBlock s fun b => .next ({ s with st := none, ctr := none, phase := .idle }.respond .ok (some b))

/-- R169: the ENC final step. -/
def encFinal (s : State) : Result :=
  andThen (execSubBytes s) fun s => andThen (execShiftRows s) fun s => andThen (execAddRoundKey 10 s) finishBlock

/-- R172: the DEC round step at `ctr = r`, for `r` in 1..9, in the direct form. -/
def decRound (r : BitVec 6) (s : State) : Result :=
  andThen (execInvShiftRows s) fun s => andThen (execInvSubBytes s) fun s => andThen (execAddRoundKey r s) fun s =>
    andThen (execInvMixColumns s) fun s => .next { s with ctr := some (r - 1) }

/-- R173: the DEC final step. -/
def decFinal (s : State) : Result :=
  andThen (execInvShiftRows s) fun s => andThen (execInvSubBytes s) fun s => andThen (execAddRoundKey 0 s) finishBlock

/-- R177: the step that `ADVANCE` takes in a phase at a counter value. Any other pair is a model fault (R208). In IDLE no
such step is enabled (R160). -/
def advanceAt (p : Phase) (r : BitVec 6) (s : State) : Result :=
  match p with
  | .idle => .fault .badSequence
  | .keyexp =>
    if 4 ≤ r.toNat ∧ r.toNat ≤ 42 then kexpStep r s
    else if r.toNat = 43 then kexpFinal s
    else .fault .badSequence
  | .enc =>
    if 1 ≤ r.toNat ∧ r.toNat ≤ 9 then encRound r s
    else if r.toNat = 10 then encFinal s
    else .fault .badSequence
  | .dec =>
    if 1 ≤ r.toNat ∧ r.toNat ≤ 9 then decRound r s
    else if r.toNat = 0 then decFinal s
    else .fault .badSequence

/-- R160, R177: `ADVANCE`. Reading `ctr = none` is a model fault (R208). -/
def advance (s : State) : Result :=
  match s.ctr with
  | none => .fault .noneCounter
  | some r => advanceAt s.phase r s

/-- R160, R230: `RESET`, from any state. The host's later drives are the host's, not the core's. -/
def resetStep (s : State) : State := { State.reset with host := s.host.tail }

/-! ### The micro-operations of each step (P5, R84) -/

/-- The micro-operations of the internal step at `(phase, ctr)`, in order (95_test_vectors.md P5; R164, R165, R168, R169,
R172, R173). -/
def microProgram (p : Phase) (r : BitVec 6) : List Instr :=
  match p with
  | .idle => []
  | .keyexp => [.kexpWord r]
  | .enc =>
    if r.toNat = 10 then [.subBytes, .shiftRows, .addRoundKey r, .storeState]
    else [.subBytes, .shiftRows, .mixColumns, .addRoundKey r]
  | .dec =>
    if r.toNat = 0 then [.invShiftRows, .invSubBytes, .addRoundKey r, .storeState]
    else [.invShiftRows, .invSubBytes, .addRoundKey r, .invMixColumns]

/-! ### The composed functions -/

/-- R56: round key `r` of a complete schedule, as a list of 44 words. -/
def roundKeyOf (ws : List Word) (r : Nat) : Vector Word 4 :=
  #v[ws.getD (4 * r) 0, ws.getD (4 * r + 1) 0, ws.getD (4 * r + 2) 0, ws.getD (4 * r + 3) 0]

/-- R174: round `r` of 1..9 of ENC_BLOCK. -/
def encRoundFn (ws : List Word) (a : StateArr) (r : Nat) : StateArr :=
  addRoundKey (roundKeyOf ws r) (mixColumns (shiftRows (subBytes a)))

/-- R174: ENC_BLOCK(W, b). -/
def encBlock (ws : List Word) (b : Block) : Block :=
  let a := (List.range' 1 9).foldl (encRoundFn ws) (addRoundKey (roundKeyOf ws 0) (blockToState b))
  stateToBlock (addRoundKey (roundKeyOf ws 10) (shiftRows (subBytes a)))

/-- R175: round `r` of 9 down to 1 of DEC_BLOCK. -/
def decRoundFn (ws : List Word) (a : StateArr) (r : Nat) : StateArr :=
  invMixColumns (addRoundKey (roundKeyOf ws r) (invSubBytes (invShiftRows a)))

/-- R175: DEC_BLOCK(W, b). -/
def decBlock (ws : List Word) (b : Block) : Block :=
  let a := (List.range' 1 9).reverse.foldl (decRoundFn ws) (addRoundKey (roundKeyOf ws 10) (blockToState b))
  stateToBlock (addRoundKey (roundKeyOf ws 0) (invSubBytes (invShiftRows a)))

/-- The words of the key-schedule store as a list, a `none` cell as 0: used for a complete schedule, where no cell is
`none` (R37 item 4). -/
def KeyStore.words (W : KeyStore) : List Word := W.toList.map fun c => c.getD 0

end Sys2Proof.Machine
end

