-- ==== Sys2Proof/Machine/Dispatch.lean ====
section
/-! DEFINITION. exec: one arm per constructor of Instr. -/

namespace Sys2Proof.Machine

def exec (i : Instr) (s : State) : Host.Outcome State Fault Refusal :=
  match i with
  | .nop => Sys2Proof.Machine.execNop s
  | .keyLoad len => Sys2Proof.Machine.execKeyLoad len s
  | .encrypt len => Sys2Proof.Machine.execEncrypt len s
  | .decrypt len => Sys2Proof.Machine.execDecrypt len s
  | .loadKey => Sys2Proof.Machine.execLoadKey s
  | .kexpWord k => Sys2Proof.Machine.execKexpWord k s
  | .loadState => Sys2Proof.Machine.execLoadState s
  | .addRoundKey r => Sys2Proof.Machine.execAddRoundKey r s
  | .subBytes => Sys2Proof.Machine.execSubBytes s
  | .invSubBytes => Sys2Proof.Machine.execInvSubBytes s
  | .shiftRows => Sys2Proof.Machine.execShiftRows s
  | .invShiftRows => Sys2Proof.Machine.execInvShiftRows s
  | .mixColumns => Sys2Proof.Machine.execMixColumns s
  | .invMixColumns => Sys2Proof.Machine.execInvMixColumns s
  | .storeState => Sys2Proof.Machine.execStoreState s
  | .gfMul a b => Sys2Proof.Machine.execGfMul a b s
  | .rotWord w => Sys2Proof.Machine.execRotWord w s
  | .subWord w => Sys2Proof.Machine.execSubWord w s

end Sys2Proof.Machine
end

