-- ==== Sys2Proof/Machine/Fetch.lean ====
section
/-! DEFINITION. Which transition comes next (R160), and placing an instruction where the next step takes it. -/

namespace Sys2Proof.Machine

/-- The transitions of R160, the wait in IDLE, and a micro-operation run alone (log 5). -/
inductive Transition where
  | reset
  | microOp (w : BitVec 12)
  | advance
  | accept (cw : BitVec 32)
  | wait
  deriving DecidableEq, Repr

/-- R160: while `rst = 1` only RESET (R230); while `phase` is not IDLE, ADVANCE; in IDLE, ACCEPT if the host offers a
command, else no step of the core. A micro-operation word in `uopSlot`, which no step of the core puts there, goes
before ADVANCE and ACCEPT (DESIGN CHOICE, log 5). -/
def State.select (s : State) : Transition :=
  if s.ports.rst then .reset
  else match s.uopSlot with
    | some w => .microOp w
    | none =>
      if s.phase ≠ .idle then .advance
      else if s.ports.cmdValid then .accept s.ports.cmdWord
      else .wait

/-- A micro-operation word run alone (log 5): the slot is emptied and the micro-operation it spells is run. A word that
spells none is refused (R86). -/
def runMicroOp (w : BitVec 12) (s : State) : Result :=
  match decode (.uop w) with
  | .ok i => exec i { s with uopSlot := none }
  | .error _ => .refused .spellsNoMicroOperation

/-- R160: `ACCEPT(cw, d)`, selected by `decode(cw)` (R83). -/
def acceptCommand (cw : BitVec 32) (s : State) : Result :=
  match decode (.cmd cw) with
  | .ok i => exec i s
  | .error _ => illegalCommand s

/-- The host offers the command word `cw`, with `din = 0`, from now until it is accepted, before anything else it does. -/
def State.offer (s : State) (cw : BitVec 32) : State :=
  { s with host := ⟨false, true, cw, 0, true⟩ :: s.host }

/-- `s` with the instruction of a table word where the next step takes it (DESIGN CHOICE, log 11, log 12). A command is
offered by the host with `din = 0`, with the sequencing pair `(phase, ctr)` of R31 at IDLE and nothing in `uopSlot`, so
that the next transition is its ACCEPT. A micro-operation, which no port carries (R84), stands in `uopSlot`, with
the ports quiet in that step. Of a number too wide for its format only the low 12 or 32 bits are placed, and a word of no
bits is placed as a micro-operation word (DESIGN CHOICE, log 12): the decoder of table words reads nothing from these. -/
def placeTableWord (s : State) (nbits w : Nat) : State :=
  if nbits ≤ 16 then { s with uopSlot := some (BitVec.ofNat 12 w), host := HostDrive.quiet :: s.host }
  else { s with phase := .idle, ctr := none, uopSlot := none }.offer (BitVec.ofNat 32 w)

end Sys2Proof.Machine
end

