-- ==== Sys2Proof/Machine/Step.lean ====
section
/-! DEFINITION. One step of the machine: one transition of R160, and what becomes of the host's drive. -/

namespace Sys2Proof.Machine

/-- One transition (R160). ACCEPT and RESET use up what the host drove; ADVANCE leaves an offer that the host holds where
it is (R237). In IDLE with nothing offered the core takes no step (R160), and time passes for the host (log 3). -/
def step (s : State) : Host.Outcome State Fault Refusal :=
  match s.select with
  | .reset => .next (resetStep s)
  | .microOp w => andWaitHost (runMicroOp w s)
  | .advance => andWaitHost (advance s)
  | .accept cw => andPopHost (acceptCommand cw s)
  | .wait => .next s.popHost

/-- `s` with the instruction of a table word where `step` takes it next (Machine/Fetch.lean, log 11, log 12). -/
def State.withFetchWord (s : State) (nbits w : Nat) : State := placeTableWord s nbits w

end Sys2Proof.Machine
end

