-- ==== Sys2Proof/Config.lean ====
section
/-! DEFINITION. The two parameters the spec leaves OPEN (R9): uninterpreted constants, read by no rule of the model. -/

namespace Sys2Proof

/-- The kinds of FSM step, for the parameter `CYCLES_PER_STEP`, which may differ for each kind (R242, D24). The spec lists no
kinds. DESIGN CHOICE, log 16: these seven, one for every accept step, one for every KEXP step, the last among them, and
one for the final step of each cipher command. -/
inductive StepKind where
  | reset | accept | kexp | encRound | encFinal | decRound | decFinal
  deriving DecidableEq, Repr

/-- `CYCLES_PER_STEP` (R242, decision D24): a positive number of clock cycles for each kind of step. OPEN: no value is
given, and no rule of the model reads it, since a model represents no time. Log 13, and log 16 for the kinds. -/
opaque Config.cyclesPerStep : StepKind → ℕ+

/-- `AES_BASE` (R63, decision D27): the bus address of the core where a platform maps its ports. OPEN: the spec
defines no bus mapping, and no rule of the model reads it. Log 13. -/
opaque Config.aesBase : Nat

end Sys2Proof
end

