-- ==== Sys2Proof/Machine/Asm.lean ====
section
/-! DEFINITION. The spec's assembler syntax (30_encoding.md R89 to R91), as abstract syntax: a line, what it puts on the
ports, its text, and a host program as the drives of a host that holds each command until it is accepted (R180, R237). -/

namespace Sys2Proof.Machine

/-- A line of a host program (R89, R91; RESET is the reset request of 95_test_vectors.md part 3). An omitted `len=` is
`none` and means 16 (R91). -/
inductive AsmLine where
  | reset
  | nop
  | keyLoad (len : Option (BitVec 16)) (key : Block)
  | encrypt (len : Option (BitVec 16)) (blk : Block)
  | decrypt (len : Option (BitVec 16)) (blk : Block)
  | raw (cmd : BitVec 32) (din : Block)
  deriving DecidableEq, Repr

/-- R91: omitting `len=` means `len=16`. -/
def lenOrDefault (len : Option (BitVec 16)) : BitVec 16 := len.getD validLen

/-- The code word on `cmd_word` of a command instruction; the micro-operations and functions have none. -/
def commandWord (i : Instr) : BitVec 32 :=
  match encode i with
  | some (.cmd cw) => cw
  | _ => 0

/-- R89: what the host drives for a line, a command being held until it is accepted (R237). `din` of a NOP is any value (R82)
and 0 here. A RESET line asserts `rst` in one step, the one in which its turn comes (DESIGN CHOICE, log 17). -/
def AsmLine.drive : AsmLine → HostDrive
  | .reset => ⟨true, false, 0, 0, false⟩
  | .nop => ⟨false, true, commandWord .nop, 0, true⟩
  | .keyLoad len key => ⟨false, true, commandWord (.keyLoad (lenOrDefault len)), key, true⟩
  | .encrypt len blk => ⟨false, true, commandWord (.encrypt (lenOrDefault len)), blk, true⟩
  | .decrypt len blk => ⟨false, true, commandWord (.decrypt (lenOrDefault len)), blk, true⟩
  | .raw cmd din => ⟨false, true, cmd, din, true⟩

/-- R180: a host program, a list of lines, as what the host will drive. A line's turn comes when the line before it is
accepted, not when that command ends, so a RESET line aborts the command before it if that is still in flight then
(DESIGN CHOICE, log 17). -/
def assemble (lines : List AsmLine) : List HostDrive := lines.map AsmLine.drive

/-- R89: the text of `len=<n>`, in decimal. -/
def lenText (len : Option (BitVec 16)) : String :=
  match len with
  | none => ""
  | some n => "len=" ++ toString n.toNat ++ ", "

/-- R89, R91: the text of a line. Hex operands are 32 digits, byte 0 first, which is the port value in hex (R14). -/
def AsmLine.text : AsmLine → String
  | .reset => "RESET"
  | .nop => "NOP"
  | .keyLoad len key => "KEY_LOAD " ++ lenText len ++ "key=" ++ key.toHex
  | .encrypt len blk => "ENCRYPT " ++ lenText len ++ "blk=" ++ blk.toHex
  | .decrypt len blk => "DECRYPT " ++ lenText len ++ "blk=" ++ blk.toHex
  | .raw cmd din => "RAW cmd=" ++ cmd.toHex ++ ", din=" ++ din.toHex

/-- R90: the text of a micro-operation: the mnemonic, then `#<IDX>` for KEXP_WORD and ADDROUNDKEY. -/
def microOpText (i : Instr) : String :=
  match i with
  | .kexpWord k => i.mnemonic ++ " #" ++ toString k.toNat
  | .addRoundKey r => i.mnemonic ++ " #" ++ toString r.toNat
  | _ => i.mnemonic

end Sys2Proof.Machine
end

