-- ==== Sys2Proof/Safety.lean ====
section
/-! DEFINITION. What counts as a safe run: the reachable states, the invariants of R37, the invariant of R22 and R27, and
the control part of the state, on which alone the sequence of steps depends (R243). -/

namespace Sys2Proof.Machine

/-- The next state of an outcome, if it is one. -/
def nextOf (o : Result) : Option State :=
  match o with
  | .next s => some s
  | .fault _ => none
  | .refused _ => none

/-- The state after `k` steps, as the host runs the core. -/
def runSteps (k : Nat) (s : State) : Result := Sys2Proof.core.run k s

/-- The states the machine can be in: from reset (R234), whatever the host does (R19). The list may be anything, so the
host may drive its ports as it likes in each step. -/
inductive Reachable : State → Prop
  | reset (h : List HostDrive) : Reachable { State.reset with host := h }
  | step {s t : State} : Reachable s → Sys2Proof.Machine.step s = .next t → Reachable t

/-- The invariants of R37, by item, with what R23 adds to item 2, and the model's own two fields empty (log 4, log 5). -/
structure Inv (s : State) : Prop where
  /-- R37 item 1. -/
  idle_iff : s.phase = .idle ↔ s.ctr = none
  /-- R37 item 2. -/
  idle_st : s.phase = .idle → s.st = none
  /-- R23: only an ENCRYPT or DECRYPT loads `st`, and its final step discards it; so `st = none` during an expansion. Not in
  R37's list: without it a step would not keep item 2. -/
  keyexp_st : s.phase = .keyexp → s.st = none
  /-- R37 item 3. -/
  cipher_ready : s.phase = .enc ∨ s.phase = .dec → s.keyValid = true ∧ s.st.isSome = true
  /-- R37 item 4. -/
  key_complete : s.keyValid = true → ∀ i : Fin 44, (s.W[i]).isSome = true
  /-- R37 item 5. -/
  keyexp_partial : s.phase = .keyexp → ∀ i, s.ctr = some i →
    s.keyValid = false ∧ ∀ k : Fin 44, (s.W[k]).isSome = true ↔ k.val < i.toNat
  /-- R37 item 6. -/
  busy_rsp : s.phase ≠ .idle → s.rsp = none
  /-- R37 item 7, R25. -/
  keyexp_range : s.phase = .keyexp → ∀ i, s.ctr = some i → 4 ≤ i.toNat ∧ i.toNat ≤ 43
  /-- R37 item 7, R25. -/
  enc_range : s.phase = .enc → ∀ i, s.ctr = some i → 1 ≤ i.toNat ∧ i.toNat ≤ 10
  /-- R37 item 7, R25. -/
  dec_range : s.phase = .dec → ∀ i, s.ctr = some i → i.toNat ≤ 9
  /-- The model's own field `out` is empty (log 4). -/
  no_out : s.out = none
  /-- The model's own field `uopSlot` is empty (log 5). -/
  no_uop : s.uopSlot = none

/-- R27: the response carries a block only with status OK. -/
def RspInv (s : State) : Prop := ∀ r, s.rsp = some r → r.data.isSome = true → r.status = .ok

/-- The words `W[0..n-1]` are those of the schedule of `key` (R59, R112, R113). -/
def ScheduleUpTo (key : Block) (n : Nat) (W : KeyStore) : Prop :=
  (∀ i, i < n → i < 4 → W[i]? = some (some (keyWord key i))) ∧
  (∀ i, 4 ≤ i → i < n → i < 44 → ∃ p t, W[i - 4]? = some (some p) ∧ W[i - 1]? = some (some t) ∧
    W[i]? = some (some (p ^^^ kexpTemp i t)))

/-- R22: while `key_valid = 1`, `W` is the complete schedule of some key; while it is being built, `W[0..ctr-1]` is the
schedule of one key so far. -/
def ScheduleInv (s : State) : Prop :=
  (s.keyValid = true → ∃ key, ScheduleUpTo key 44 s.W) ∧
  (s.phase = .keyexp → ∀ i, s.ctr = some i → ∃ key, ScheduleUpTo key i.toNat s.W)

/-- The control part of a drive: everything but the operand `din`. -/
def HostDrive.control (d : HostDrive) : Bool × Bool × BitVec 32 × Bool := (d.rst, d.cmdValid, d.cmdWord, d.hold)

/-- The same control: two states that differ at most in key data, block data and operands (R243). -/
structure SameControl (s t : State) : Prop where
  phase_eq : s.phase = t.phase
  ctr_eq : s.ctr = t.ctr
  key_eq : s.keyValid = t.keyValid
  status_eq : s.rspStatus = t.rspStatus
  data_eq : s.dout.isSome = t.dout.isSome
  host_eq : s.host.map HostDrive.control = t.host.map HostDrive.control

/-- No reset is asserted in what the host will drive. -/
def NoReset (s : State) : Prop := ∀ d ∈ s.host, d.rst = false

end Sys2Proof.Machine
end

