-- ==== Sys2Proof/Certificates/Slice0/Obligations.lean ====
section
/-! DEFINITION. The statements for the provers, and the few words they are written with. Where a rule gives a result by bits or
bytes, the statement says it by bits or bytes, not through the function the meaning calls. -/

namespace Sys2Proof.Spec

open Sys2Proof Sys2Proof.Machine

/-- The core is neither reset in this step nor running a micro-operation alone. -/
def Running (s : State) : Prop := s.ports.rst = false ∧ s.uopSlot = none

/-- The host offers the command word `cw` and the core is ready for it (R26, R160). -/
def Offered (s : State) (cw : BitVec 32) : Prop :=
  Running s ∧ s.phase = .idle ∧ s.ports.cmdValid = true ∧ s.ports.cmdWord = cw

/-- The command word `{LEN, RSVD, OP}` (R75). -/
def word32 (len : BitVec 16) (rsvd : BitVec 12) (op : BitVec 4) : BitVec 32 := len ++ rsvd ++ op

/-- The micro-operation word `{RSV2, IDX, UOP}` (R84). -/
def word12 (rsv2 : BitVec 2) (idx : BitVec 6) (op : BitVec 4) : BitVec 12 := rsv2 ++ idx ++ op

/-- The instructions of a list, one after another (R65). -/
def runInstrs : List Instr → State → Result
  | [], s => .next s
  | i :: is, s => andThen (exec i s) (runInstrs is)

/-- The product of two polynomials over GF(2), before reduction (R102). -/
def polyMul (a b : Byte) : BitVec 16 :=
  (List.range 8).foldl (fun acc k => if b.getLsbD k then acc ^^^ (a.setWidth 16 <<< k) else acc) 0

/-- The remainder by `x^8 + x^4 + x^3 + x + 1` (R102): the terms of degree 15 down to 8 are cancelled in turn. -/
def polyMod (p : BitVec 16) : Byte :=
  ((List.range 8).reverse.foldl (fun acc k => if acc.getLsbD (k + 8) then acc ^^^ ((0x11b : BitVec 16) <<< k) else acc) p).setWidth 8

/-- R53: the affine map `A`. -/
def affine (b : Byte) : Byte :=
  b ^^^ b.rotateLeft 1 ^^^ b.rotateLeft 2 ^^^ b.rotateLeft 3 ^^^ b.rotateLeft 4 ^^^ 0x63

/-- The micro-operations that read `st` (R131 to R141), with a legal index. -/
def readsState : Instr → Bool
  | .addRoundKey r => decide (r.toNat ≤ 10)
  | .subBytes | .invSubBytes | .shiftRows | .invShiftRows | .mixColumns | .invMixColumns | .storeState => true
  | _ => false

/-- A complete schedule stands in `W`. -/
def Holds (W : KeyStore) (ws : Vector Word 44) : Prop := ∀ i : Fin 44, W[i] = some ws[i]

/-- The offer of a valid command: `LEN = 16`, `RSVD = 0`. -/
def validOffer (op : BitVec 4) (din : Block) (hold : Bool) : HostDrive := ⟨false, true, word32 16 0 op, din, hold⟩

/-- R172, R175: DEC_BLOCK's state after its round steps 9 down to `r` on the block `b`; with `r = 10`, after DEC_START. -/
def decAfter (ws : List Word) (b : Block) (r : Nat) : StateArr :=
  (List.range' r (10 - r)).reverse.foldl (decRoundFn ws) (addRoundKey (roundKeyOf ws 10) (blockToState b))

/-- R168, R174: ENC_BLOCK's state after SUBBYTES and SHIFTROWS of round `r` on the block `b`. -/
def encShifted (ws : List Word) (b : Block) (r : Nat) : StateArr :=
  shiftRows (subBytes ((List.range' 1 (r - 1)).foldl (encRoundFn ws) (addRoundKey (roundKeyOf ws 0) (blockToState b))))

end Sys2Proof.Spec

open Sys2Proof Sys2Proof.Machine Sys2Proof.Spec

/-! ### Encoding -/

/-- R75 to R90: decoding undoes encoding, for every well-formed instruction that has a code; exactly the functions have
none (R87). -/
def Obligations.DecodeUndoesEncode : Prop :=
  ∀ i : Instr, (encode i = none ↔ i.hasCode = false) ∧
    (i.wf = true → ∀ c, encode i = some c → decode c = .ok i)

/-- The other direction: what decodes is well formed, and encodes to the same word, but for a NOP, whose `LEN` is ignored
(R77). -/
def Obligations.EncodeUndoesDecode : Prop :=
  ∀ (c : Code) (i : Instr), decode c = .ok i → i.wf = true ∧ i.hasCode = true ∧ (i ≠ .nop → encode i = some c)

/-- R83: decoding a command word, over all values of its three fields. The spec derives R83 from R75 to R79. -/
def Obligations.CommandWordDecodes : Prop :=
  ∀ (len : BitVec 16) (rsvd : BitVec 12) (op : BitVec 4),
    (rsvd ≠ 0 → decodeCmd (word32 len rsvd op) = .error .reservedBits) ∧
    (rsvd = 0 → op = 0x0 → decodeCmd (word32 len rsvd op) = .ok .nop) ∧
    (rsvd = 0 → op = 0x1 → decodeCmd (word32 len rsvd op) = .ok (.keyLoad len)) ∧
    (rsvd = 0 → op = 0x2 → decodeCmd (word32 len rsvd op) = .ok (.encrypt len)) ∧
    (rsvd = 0 → op = 0x3 → decodeCmd (word32 len rsvd op) = .ok (.decrypt len)) ∧
    (rsvd = 0 → 4 ≤ op.toNat → decodeCmd (word32 len rsvd op) = .error .reservedOp)

/-- R92 and the micro-operation words of R90 and 95_test_vectors.md P5: written-out words decode to what they stand for.
The spec derives R92. -/
def Obligations.WrittenWordsDecode : Prop :=
  decode (.cmd 0x00100001) = .ok (.keyLoad 16) ∧ decode (.cmd 0x000F0002) = .ok (.encrypt 15) ∧
  decode (.cmd 0x00110003) = .ok (.decrypt 17) ∧ decode (.cmd 0x00000000) = .ok .nop ∧
  decode (.cmd 0x00100011) = .error .reservedBits ∧ decode (.cmd 0x00100004) = .error .reservedOp ∧
  decode (.uop 0x0A3) = .ok (.addRoundKey 10) ∧ decode (.uop 0x041) = .ok (.kexpWord 4) ∧
  decode (.uop 0x2B1) = .ok (.kexpWord 43) ∧ decode (.uop 0x008) = .ok .mixColumns ∧
  decode (.uop 0x002) = .ok .loadState ∧ decode (.uop 0x00A) = .ok .storeState ∧ decode (.uop 0x000) = .ok .loadKey

/-- R86: a micro-operation word is refused exactly when `RSV2` is not 0, `UOP` is reserved or `IDX` is outside R85, and a
step that meets one in `uopSlot` refuses it by name. That a micro-operation can stand in `uopSlot` is the model's (log 5),
and so is that the stop is a refusal (log 7). -/
def Obligations.ReservedMicroOpRefused : Prop :=
  ∀ (rsv2 : BitVec 2) (idx : BitVec 6) (op : BitVec 4) (s : State),
    s.ports.rst = false → s.uopSlot = some (word12 rsv2 idx op) →
    (rsv2 ≠ 0 ∨ 0xB ≤ op.toNat ∨ (op = 0x1 ∧ ¬ (4 ≤ idx.toNat ∧ idx.toNat ≤ 43)) ∨ (op = 0x3 ∧ 10 < idx.toNat) ∨
      (op ≠ 0x1 ∧ op ≠ 0x3 ∧ idx ≠ 0) ↔ step s = .refused .spellsNoMicroOperation)

/-! ### The tables and the field -/

/-- R54: the two tables are inverse to each other at every byte, so the S-box is a permutation; it has no fixed point. The
spec derives the last clause from R50. -/
def Obligations.TablesAreDual : Prop :=
  (∀ x : Byte, invSbox (sbox x) = x ∧ sbox (invSbox x) = x) ∧ Function.Bijective sbox ∧ ∀ x : Byte, sbox x ≠ x

/-- R53: the S-box is the affine map of the field inverse, which is unique for every byte but 0. The spec calls this
informative, from general knowledge (log 10). -/
def Obligations.SboxIsAffineOfInverse : Prop :=
  sbox 0 = affine 0 ∧ ∀ x : Byte, x ≠ 0 → ∃! y : Byte, gfmul x y = 0x01 ∧ sbox x = affine y

/-- R52: the round constants: each is the one before times `0x02` in its top byte, the first is 1, the last two 0x1b and
0x36, and the low 24 bits are 0. The spec derives four of the ten (R52). -/
def Obligations.RoundConstantsDouble : Prop :=
  rcon 0 = 0x01000000 ∧ rcon 8 = 0x1b000000 ∧ rcon 9 = 0x36000000 ∧
  (∀ k : Fin 10, (rcon k.val).extractLsb' 0 24 = 0) ∧
  ∀ k : Fin 9, (rcon (k.val + 1)).extractLsb' 24 8 = gfmul 0x02 ((rcon k.val).extractLsb' 24 8)

/-- R101: the laws the source states of GFMUL. -/
def Obligations.FieldLaws : Prop :=
  (∀ b : Byte, gfmul 1 b = b) ∧ (∀ b : Byte, gfmul 0 b = 0) ∧
  (∀ a b1 b2 : Byte, gfmul a (b1 ^^^ b2) = gfmul a b1 ^^^ gfmul a b2) ∧
  ∀ a1 a2 b : Byte, gfmul (a1 ^^^ a2) b = gfmul a1 b ^^^ gfmul a2 b

/-- R102: GFMUL is the product of polynomials modulo `x^8+x^4+x^3+x+1`; it is commutative and associative, every non-zero
byte has a unique inverse, 1 is neutral and 0 absorbs; doubling is `xtime`; RCON is the powers of `xtime` from 0x01. The
spec derives R102 from R100. -/
def Obligations.FieldIsPolynomialProduct : Prop :=
  (∀ a b : Byte, gfmul a b = polyMod (polyMul a b)) ∧
  (∀ a b : Byte, gfmul a b = gfmul b a) ∧
  (∀ a b c : Byte, gfmul (gfmul a b) c = gfmul a (gfmul b c)) ∧
  (∀ a : Byte, a ≠ 0 → ∃! b : Byte, gfmul a b = 1) ∧
  (∀ a : Byte, gfmul a 1 = a ∧ gfmul a 0 = 0) ∧
  (∀ a : Byte, gfmul 0x02 a = (a <<< 1) ^^^ (if a.getLsbD 7 then 0x1b else 0x00)) ∧
  ∀ k : Fin 10, (rcon k.val).extractLsb' 24 8 = (gfmul 0x02)^[k.val] 0x01

/-! ### The three functions -/

/-- R100, R110, R111: GFMUL, ROTWORD and SUBWORD run in every state, raise nothing and change nothing but `out`, where the
result stands (the model's own field, log 4). -/
def Obligations.FunctionsGiveTheirResult : Prop :=
  (∀ (s : State) (a b : Byte), exec (.gfMul a b) s = .next { s with out := some (.byte (polyMod (polyMul a b))) }) ∧
  (∀ (s : State) (b0 b1 b2 b3 : Byte), exec (.rotWord (b0 ++ b1 ++ b2 ++ b3)) s =
    .next { s with out := some (.word (b1 ++ b2 ++ b3 ++ b0)) }) ∧
  ∀ (s : State) (b0 b1 b2 b3 : Byte), exec (.subWord (b0 ++ b1 ++ b2 ++ b3)) s =
    .next { s with out := some (.word (sbox b0 ++ sbox b1 ++ sbox b2 ++ sbox b3)) }

/-! ### Key expansion -/

/-- R112: LOAD_KEY, the word with `UOP = 0x0` and `IDX = 0`, runs in every state and writes `W[i] = din[127-32i : 96-32i]`
for `i` in 0..3, and nothing else. -/
def Obligations.LoadKeyWritesFourWords : Prop :=
  decode (.uop 0x000) = .ok .loadKey ∧
  ∀ s : State, ∃ W' : KeyStore, exec .loadKey s = .next { s with W := W' } ∧
    ∀ i : Fin 44, W'[i] = if i.val < 4 then some (s.din.extractLsb' (96 - 32 * i.val) 32) else s.W[i]

/-- R113: KEXP_WORD `#i`, for every `i` in 4..43, writes `W[i]` and nothing else. Its value is `W[i-4] xor temp`, with
`temp = W[i-1]`, and for `i` a multiple of 4 `SUBWORD(ROTWORD(temp)) xor RCON[i div 4 - 1]`, here byte by byte. -/
def Obligations.KexpWordDerivesWord : Prop :=
  ∀ (s : State) (i : BitVec 6) (p t : Word), 4 ≤ i.toNat → i.toNat ≤ 43 →
    s.W[i.toNat - 4]? = some (some p) → s.W[i.toNat - 1]? = some (some t) →
    ∃ (W' : KeyStore) (w : Word), exec (.kexpWord i) s = .next { s with W := W' } ∧
      (∀ k : Fin 44, W'[k] = if k.val = i.toNat then some w else s.W[k]) ∧
      (i.toNat % 4 ≠ 0 → w = p ^^^ t) ∧
      (i.toNat % 4 = 0 → w = p ^^^ (rcon (i.toNat / 4 - 1) ^^^
        (sbox (t.extractLsb' 16 8) ++ sbox (t.extractLsb' 8 8) ++ sbox (t.extractLsb' 0 8) ++ sbox (t.extractLsb' 24 8))))

/-- R85, R86, R208: where KEXP_WORD and ADDROUNDKEY stop: an index outside R85 is refused, and a `W` cell that is read and
holds `none` is a model fault. That the first two are refusals and not faults is the model's reading (log 7). -/
def Obligations.KeyReadsStopOnNone : Prop :=
  (∀ (s : State) (i : BitVec 6), ¬ (4 ≤ i.toNat ∧ i.toNat ≤ 43) → exec (.kexpWord i) s = .refused .spellsNoMicroOperation) ∧
  (∀ (s : State) (r : BitVec 6), 10 < r.toNat → exec (.addRoundKey r) s = .refused .spellsNoMicroOperation) ∧
  (∀ (s : State) (i : BitVec 6), 4 ≤ i.toNat → i.toNat ≤ 43 → s.W[i.toNat - 1]? = some none ∨ s.W[i.toNat - 4]? = some none →
    ∃ k, exec (.kexpWord i) s = .fault (.noneKeyWord k) ∧ s.W[k]? = some none) ∧
  ∀ (s : State) (r : BitVec 6) (c : Fin 4), r.toNat ≤ 10 → s.st.isSome = true → s.W[4 * r.toNat + c.val]? = some none →
    ∃ k, exec (.addRoundKey r) s = .fault (.noneKeyWord k) ∧ s.W[k]? = some none

/-! ### State transforms -/

/-- R130: LOAD_STATE, the word with `UOP = 0x2` and `IDX = 0`, runs in every state, writes all 16 bytes of `st` from `din`,
and nothing else. -/
def Obligations.LoadStateFillsColumns : Prop :=
  decode (.uop 0x002) = .ok .loadState ∧
  ∀ s : State, ∃ a : StateArr, exec .loadState s = .next { s with st := some a } ∧
    ∀ (r c : Fin 4) (i : Fin 16), r.val = i.val % 4 → c.val = i.val / 4 → a[r][c] = s.din.extractLsb' (120 - 8 * i.val) 8

/-- R131: STORE_STATE produces the block of `st` and writes no element of the state but the model's `out` (log 4). -/
def Obligations.StoreStateSerializes : Prop :=
  ∀ (s : State) (a : StateArr), s.st = some a → ∃ b : Block, exec .storeState s = .next { s with out := some (.block b) } ∧
    ∀ (r c : Fin 4) (i : Fin 16), r.val = i.val % 4 → c.val = i.val / 4 → b.extractLsb' (120 - 8 * i.val) 8 = a[r][c]

/-- R130, R131: "STORE_STATE is the exact inverse of LOAD_STATE", both ways. -/
def Obligations.StoreUndoesLoad : Prop :=
  (∀ s t : State, exec .loadState s = .next t → exec .storeState t = .next { t with out := some (.block s.din) }) ∧
  ∀ (s : State) (a : StateArr) (b : Block), s.st = some a → exec .storeState s = .next { s with out := some (.block b) } →
    s.din = b → exec .loadState s = .next s

/-- R132: ADDROUNDKEY `#r`, the word with `UOP = 0x3` and `IDX = r`, for every `r` in 0..10, xors byte `j` of word
`W[4r + c]` into `s[j][c]`, and changes nothing else. -/
def Obligations.AddRoundKeyXorsWords : Prop :=
  (∀ r : BitVec 6, r.toNat ≤ 10 → decode (.uop (word12 0 r 0x3)) = .ok (.addRoundKey r)) ∧
  ∀ (s : State) (r : BitVec 6) (a : StateArr) (k : Fin 4 → Word), r.toNat ≤ 10 → s.st = some a →
    (∀ c : Fin 4, s.W[4 * r.toNat + c.val]? = some (some (k c))) →
    ∃ a' : StateArr, exec (.addRoundKey r) s = .next { s with st := some a' } ∧
      ∀ j c : Fin 4, a'[j][c] = a[j][c] ^^^ (k c).extractLsb' (24 - 8 * j.val) 8

/-- R134, R135: SUBBYTES (`UOP = 0x4`) and INVSUBBYTES (`UOP = 0x5`) replace each byte of `st` by its table entry, and
change nothing else. -/
def Obligations.SubBytesMapsEachByte : Prop :=
  decode (.uop 0x004) = .ok .subBytes ∧ decode (.uop 0x005) = .ok .invSubBytes ∧
  ∀ (s : State) (a : StateArr), s.st = some a → ∃ x y : StateArr,
    exec .subBytes s = .next { s with st := some x } ∧ exec .invSubBytes s = .next { s with st := some y } ∧
    ∀ r c : Fin 4, x[r][c] = sbox a[r][c] ∧ y[r][c] = invSbox a[r][c]

/-- R137, R138: SHIFTROWS (`UOP = 0x6`) takes the byte at column `(c + r) mod 4` to column `c`, INVSHIFTROWS (`UOP = 0x7`)
that at `(c - r) mod 4`; nothing else changes. -/
def Obligations.ShiftRowsRotatesRows : Prop :=
  decode (.uop 0x006) = .ok .shiftRows ∧ decode (.uop 0x007) = .ok .invShiftRows ∧
  ∀ (s : State) (a : StateArr), s.st = some a → ∃ x y : StateArr,
    exec .shiftRows s = .next { s with st := some x } ∧ exec .invShiftRows s = .next { s with st := some y } ∧
    ∀ r c d : Fin 4, (d.val = (c.val + r.val) % 4 → x[r][c] = a[r][d]) ∧
      ((d.val : Int) = ((c.val : Int) - (r.val : Int)) % 4 → y[r][c] = a[r][d])

/-- R140: MIXCOLUMNS (`UOP = 0x8`), each column written out; nothing but `st` changes. -/
def Obligations.MixColumnsWrittenOut : Prop :=
  decode (.uop 0x008) = .ok .mixColumns ∧
  ∀ (s : State) (a : StateArr), s.st = some a → ∃ b : StateArr, exec .mixColumns s = .next { s with st := some b } ∧
    ∀ c : Fin 4,
      b[0][c] = gfmul 0x02 a[0][c] ^^^ gfmul 0x03 a[1][c] ^^^ a[2][c] ^^^ a[3][c] ∧
      b[1][c] = a[0][c] ^^^ gfmul 0x02 a[1][c] ^^^ gfmul 0x03 a[2][c] ^^^ a[3][c] ∧
      b[2][c] = a[0][c] ^^^ a[1][c] ^^^ gfmul 0x02 a[2][c] ^^^ gfmul 0x03 a[3][c] ∧
      b[3][c] = gfmul 0x03 a[0][c] ^^^ a[1][c] ^^^ a[2][c] ^^^ gfmul 0x02 a[3][c]

/-- R141: INVMIXCOLUMNS (`UOP = 0x9`), each column written out; nothing but `st` changes. -/
def Obligations.InvMixColumnsWrittenOut : Prop :=
  decode (.uop 0x009) = .ok .invMixColumns ∧
  ∀ (s : State) (a : StateArr), s.st = some a → ∃ b : StateArr, exec .invMixColumns s = .next { s with st := some b } ∧
    ∀ c : Fin 4,
      b[0][c] = gfmul 0x0e a[0][c] ^^^ gfmul 0x0b a[1][c] ^^^ gfmul 0x0d a[2][c] ^^^ gfmul 0x09 a[3][c] ∧
      b[1][c] = gfmul 0x09 a[0][c] ^^^ gfmul 0x0e a[1][c] ^^^ gfmul 0x0b a[2][c] ^^^ gfmul 0x0d a[3][c] ∧
      b[2][c] = gfmul 0x0d a[0][c] ^^^ gfmul 0x09 a[1][c] ^^^ gfmul 0x0e a[2][c] ^^^ gfmul 0x0b a[3][c] ∧
      b[3][c] = gfmul 0x0b a[0][c] ^^^ gfmul 0x0d a[1][c] ^^^ gfmul 0x09 a[2][c] ^^^ gfmul 0x0e a[3][c]

/-- R208, 42_state_transforms.md: a micro-operation that reads `st` and finds `none` is a model fault. In ADDROUNDKEY `st`
is read before `W` (log 14). -/
def Obligations.StateReadsStopOnNone : Prop :=
  ∀ (s : State) (i : Instr), readsState i = true → s.st = none → exec i s = .fault .noneState

/-- R133: applying the same round key twice gives back the state. -/
def Obligations.AddRoundKeyTwiceRestores : Prop :=
  ∀ (s t : State) (r : BitVec 6), exec (.addRoundKey r) s = .next t → exec (.addRoundKey r) t = .next s

/-- R136: SUBBYTES and INVSUBBYTES undo each other. The spec derives R136 from R54. -/
def Obligations.SubBytesInverses : Prop :=
  ∀ s t : State, (exec .subBytes s = .next t → exec .invSubBytes t = .next s) ∧
    (exec .invSubBytes s = .next t → exec .subBytes t = .next s)

/-- R139: SHIFTROWS and INVSHIFTROWS undo each other, and each commutes with SUBBYTES and with INVSUBBYTES, in every state
(a state without `st` included). The spec derives R139. -/
def Obligations.ShiftRowsInversesAndCommute : Prop :=
  (∀ s t : State, (exec .shiftRows s = .next t → exec .invShiftRows t = .next s) ∧
    (exec .invShiftRows s = .next t → exec .shiftRows t = .next s)) ∧
  ∀ s : State, runInstrs [.shiftRows, .subBytes] s = runInstrs [.subBytes, .shiftRows] s ∧
    runInstrs [.shiftRows, .invSubBytes] s = runInstrs [.invSubBytes, .shiftRows] s ∧
    runInstrs [.invShiftRows, .subBytes] s = runInstrs [.subBytes, .invShiftRows] s ∧
    runInstrs [.invShiftRows, .invSubBytes] s = runInstrs [.invSubBytes, .invShiftRows] s

/-- R142: MIXCOLUMNS and INVMIXCOLUMNS undo each other; the product of the two matrices is the identity; both are linear.
The spec derives R142. -/
def Obligations.MixColumnsInversesAndLinear : Prop :=
  (∀ s t : State, (exec .mixColumns s = .next t → exec .invMixColumns t = .next s) ∧
    (exec .invMixColumns s = .next t → exec .mixColumns t = .next s)) ∧
  (∀ r c : Fin 4, (mulMatrix mixMatrix invMixMatrix)[r][c] = if r = c then 1 else 0) ∧
  ∀ a b d : StateArr, (∀ r c : Fin 4, d[r][c] = a[r][c] ^^^ b[r][c]) → ∀ r c : Fin 4,
    (mixColumns d)[r][c] = (mixColumns a)[r][c] ^^^ (mixColumns b)[r][c] ∧
    (invMixColumns d)[r][c] = (invMixColumns a)[r][c] ^^^ (invMixColumns b)[r][c]

/-! ### Commands: the accept step -/

/-- R161: NOP changes nothing but `rsp`, whatever `LEN` and `din` are; as an instruction and as a step on an offered word.
That a step uses up the offer is the model's (log 2). -/
def Obligations.NopAnswersOk : Prop :=
  (∀ s : State, s.phase = .idle → exec .nop s = .next { s with rsp := some ⟨.ok, none⟩ }) ∧
  ∀ (s : State) (len : BitVec 16), Offered s (word32 len 0 0x0) →
    step s = .next { s with rsp := some ⟨.ok, none⟩, host := s.host.tail }

/-- R162, R163: a KEY_LOAD with `LEN = 16` clears `key_valid` and `rsp`, writes `W[0..3]` from `din`, discards
`W[4..43]` and starts the expansion at word 4; nothing else changes. -/
def Obligations.KeyLoadStartsExpansion : Prop :=
  ∀ s : State, s.phase = .idle → ∃ W' : KeyStore,
    exec (.keyLoad 16) s = .next { s with keyValid := false, W := W', ctr := some 4, phase := .keyexp, rsp := none } ∧
    ∀ i : Fin 44, W'[i] = if i.val < 4 then some (s.din.extractLsb' (96 - 32 * i.val) 32) else none

/-- R202: a KEY_LOAD with another length answers INVALID_KEY_LENGTH in its accept step and changes nothing else; 15 and 17
are such lengths, and 16 is not. That a step uses up the offer is the model's (log 2). -/
def Obligations.KeyLoadBadLengthFails : Prop :=
  (∀ (s : State) (len : BitVec 16), s.phase = .idle → len ≠ 16 →
    exec (.keyLoad len) s = .next { s with rsp := some ⟨.invalidKeyLength, none⟩ }) ∧
  (∀ (s : State) (len : BitVec 16), len ≠ 16 → Offered s (word32 len 0 0x1) →
    step s = .next { s with rsp := some ⟨.invalidKeyLength, none⟩, host := s.host.tail }) ∧
  (15 : BitVec 16) ≠ 16 ∧ (17 : BitVec 16) ≠ 16 ∧
  ∀ s : State, Offered s (word32 16 0 0x1) → ∃ t : State, step s = .next t ∧ t.phase = .keyexp ∧ t.rsp = none

/-- R166, R167: an ENCRYPT with a key and `LEN = 16` clears `rsp`, loads `din` into `st` xor round key 0 and starts round 1;
nothing else changes. -/
def Obligations.EncryptStartsRounds : Prop :=
  ∀ (s : State) (k : Fin 4 → Word), s.phase = .idle → s.keyValid = true →
    (∀ c : Fin 4, s.W[c.val]? = some (some (k c))) → ∃ a : StateArr,
    exec (.encrypt 16) s = .next { s with rsp := none, st := some a, ctr := some 1, phase := .enc } ∧
    ∀ j c : Fin 4, a[j][c] = s.din.extractLsb' (120 - 8 * (4 * c.val + j.val)) 8 ^^^ (k c).extractLsb' (24 - 8 * j.val) 8

/-- R170, R171: a DECRYPT with a key and `LEN = 16` clears `rsp`, loads `din` into `st` xor round key 10 and starts round
step 9; nothing else changes. -/
def Obligations.DecryptStartsRounds : Prop :=
  ∀ (s : State) (k : Fin 4 → Word), s.phase = .idle → s.keyValid = true →
    (∀ c : Fin 4, s.W[40 + c.val]? = some (some (k c))) → ∃ a : StateArr,
    exec (.decrypt 16) s = .next { s with rsp := none, st := some a, ctr := some 9, phase := .dec } ∧
    ∀ j c : Fin 4, a[j][c] = s.din.extractLsb' (120 - 8 * (4 * c.val + j.val)) 8 ^^^ (k c).extractLsb' (24 - 8 * j.val) 8

/-- R204: ENCRYPT and DECRYPT while `key_valid = 0` answer NO_KEY, whatever `LEN` is (R206), and change nothing else. That
a step uses up the offer is the model's (log 2). -/
def Obligations.CipherWithoutKeyFails : Prop :=
  ∀ (s : State) (len : BitVec 16), s.keyValid = false →
    (s.phase = .idle → exec (.encrypt len) s = .next { s with rsp := some ⟨.noKey, none⟩ } ∧
      exec (.decrypt len) s = .next { s with rsp := some ⟨.noKey, none⟩ }) ∧
    (Offered s (word32 len 0 0x2) ∨ Offered s (word32 len 0 0x3) →
      step s = .next { s with rsp := some ⟨.noKey, none⟩, host := s.host.tail })

/-- R203: with a key, ENCRYPT and DECRYPT with a length other than 16 answer INVALID_BLOCK_LENGTH and change nothing else.
That a step uses up the offer is the model's (log 2). -/
def Obligations.CipherBadLengthFails : Prop :=
  ∀ (s : State) (len : BitVec 16), s.keyValid = true → len ≠ 16 →
    (s.phase = .idle → exec (.encrypt len) s = .next { s with rsp := some ⟨.invalidBlockLength, none⟩ } ∧
      exec (.decrypt len) s = .next { s with rsp := some ⟨.invalidBlockLength, none⟩ }) ∧
    (Offered s (word32 len 0 0x2) ∨ Offered s (word32 len 0 0x3) →
      step s = .next { s with rsp := some ⟨.invalidBlockLength, none⟩, host := s.host.tail })

/-- R78, R79, R205, R206: a word with `RSVD` not 0 or a reserved `OP` answers ILLEGAL_COMMAND, whatever `LEN`, `din` and
`key_valid` are, and changes nothing else. That a step uses up the offer is the model's (log 2). -/
def Obligations.IllegalCommandAnswered : Prop :=
  ∀ (s : State) (len : BitVec 16) (rsvd : BitVec 12) (op : BitVec 4), Offered s (word32 len rsvd op) →
    rsvd ≠ 0 ∨ 4 ≤ op.toNat → step s = .next { s with rsp := some ⟨.illegalCommand, none⟩, host := s.host.tail }

/-- R200, R201, R207: an error comes only in an accept step, as a response without data that changes nothing but `rsp` (the
offer is used up); a step of a command in flight answers no error. -/
def Obligations.ErrorsChangeOnlyResponse : Prop :=
  (∀ (s t : State) (cw : BitVec 32) (r : Response), Offered s cw → step s = .next t → t.rsp = some r → r.status ≠ .ok →
    r.data = none ∧ t = { s with rsp := some r, host := s.host.tail }) ∧
  ∀ (s t : State) (r : Response), Inv s → s.phase ≠ .idle → step s = .next t → t.rsp = some r → r.status = .ok

/-- R26, R29, R237: while `phase` is not IDLE a command is not accepted. As an instruction it does nothing (log 6), and a
step does the same to the core whatever the host drives, as long as it asserts no reset. -/
def Obligations.BusyCoreIgnoresHost : Prop :=
  (∀ (s : State) (len : BitVec 16), s.phase ≠ .idle → exec .nop s = .next s ∧ exec (.keyLoad len) s = .next s ∧
    exec (.encrypt len) s = .next s ∧ exec (.decrypt len) s = .next s) ∧
  ∀ (s t : State) (h : List HostDrive), Running s → s.phase ≠ .idle → (h.headD HostDrive.quiet).rst = false →
    step s = .next t → ∃ h' : List HostDrive, step { s with host := h } = .next { t with host := h' } ∧
      (h' = h ∨ h' = h.tail)

/-! ### Steps -/

/-- R160, R83: a step on an offered word that decodes runs the instruction and uses up the offer; a step on a
micro-operation word in `uopSlot` (log 5) runs its instruction; in IDLE with nothing offered the core does nothing (log 3). -/
def Obligations.StepRunsDecodedInstruction : Prop :=
  (∀ (s t : State) (cw : BitVec 32) (i : Instr), Offered s cw → decode (.cmd cw) = .ok i → exec i s = .next t →
    step s = .next { t with host := t.host.tail }) ∧
  (∀ (s t : State) (w : BitVec 12) (i : Instr), s.ports.rst = false → s.ports.cmdValid = false → s.uopSlot = some w →
    decode (.uop w) = .ok i → exec i { s with uopSlot := none } = .next t → step s = .next { t with host := t.host.tail }) ∧
  ∀ s : State, Running s → s.phase = .idle → s.ports.cmdValid = false → step s = .next { s with host := s.host.tail }

/-- A word placed by withFetchWord is the next instruction run (log 11): for a command word, from any state; for a
micro-operation word, from any state. -/
def Obligations.PlacedWordRunsNext : Prop :=
  (∀ (s t : State) (w : Nat) (i : Instr), decodeTableWord 32 w = some i →
    exec i { s with phase := .idle, ctr := none, uopSlot := none, host := ⟨false, true, BitVec.ofNat 32 w, 0, true⟩ :: s.host } =
      .next t → step (s.withFetchWord 32 w) = .next { t with host := s.host }) ∧
  ∀ (s t : State) (w : Nat) (i : Instr), decodeTableWord 16 w = some i →
    exec i { s with uopSlot := none, host := HostDrive.quiet :: s.host } = .next t →
    step (s.withFetchWord 16 w) = .next { t with host := s.host }

/-- R164, R165: a KEXP step at `ctr = i` runs KEXP_WORD `#i`; then `ctr` goes up, and after word 43 the core is IDLE with
`key_valid = 1` and answers OK. -/
def Obligations.KexpStepRunsKexpWord : Prop :=
  ∀ (s u : State) (i : BitVec 6), Running s → s.phase = .keyexp → s.ctr = some i → 4 ≤ i.toNat → i.toNat ≤ 43 →
    runInstrs [.kexpWord i] s = .next u → ∃ h : List HostDrive,
    (i.toNat ≤ 42 → step s = .next { u with ctr := some (i + 1), host := h }) ∧
    (i.toNat = 43 → step s =
      .next { u with ctr := none, phase := .idle, keyValid := true, rsp := some ⟨.ok, none⟩, host := h })

/-- R168, R169, 95_test_vectors.md P5: an ENC step runs its micro-operations in order; then `ctr` goes up, and after round
10 the core is IDLE, `st` is `none` and the response is the block STORE_STATE produced. The model's `out` carries the
block from STORE_STATE to the response when it is run alone (log 4). -/
def Obligations.EncStepRunsMicroOps : Prop :=
  (∀ (s u : State) (r : BitVec 6), Running s → s.phase = .enc → s.ctr = some r → 1 ≤ r.toNat → r.toNat ≤ 9 →
    runInstrs [.subBytes, .shiftRows, .mixColumns, .addRoundKey r] s = .next u →
    ∃ h : List HostDrive, step s = .next { u with ctr := some (r + 1), host := h }) ∧
  ∀ (s u : State) (b : Block), Running s → s.phase = .enc → s.ctr = some 10 →
    runInstrs [.subBytes, .shiftRows, .addRoundKey 10, .storeState] s = .next u → u.out = some (.block b) →
    ∃ h : List HostDrive, step s =
      .next { u with st := none, ctr := none, phase := .idle, rsp := some ⟨.ok, some b⟩, out := s.out, host := h }

/-- R172, R173, 95_test_vectors.md P5: a DEC step runs its micro-operations in order, AddRoundKey before InvMixColumns;
then `ctr` goes down, and after round step 0 the core is IDLE, `st` is `none` and the response is the block of
STORE_STATE. The model's `out` carries the block from STORE_STATE to the response when it is run alone (log 4). -/
def Obligations.DecStepRunsMicroOps : Prop :=
  (∀ (s u : State) (r : BitVec 6), Running s → s.phase = .dec → s.ctr = some r → 1 ≤ r.toNat → r.toNat ≤ 9 →
    runInstrs [.invShiftRows, .invSubBytes, .addRoundKey r, .invMixColumns] s = .next u →
    ∃ h : List HostDrive, step s = .next { u with ctr := some (r - 1), host := h }) ∧
  ∀ (s u : State) (b : Block), Running s → s.phase = .dec → s.ctr = some 0 →
    runInstrs [.invShiftRows, .invSubBytes, .addRoundKey 0, .storeState] s = .next u → u.out = some (.block b) →
    ∃ h : List HostDrive, step s =
      .next { u with st := none, ctr := none, phase := .idle, rsp := some ⟨.ok, some b⟩, out := s.out, host := h }

/-- R177, R208: the transition table of ADVANCE, row by row, and a named stop at every other pair. -/
def Obligations.AdvanceFollowsTable : Prop :=
  (∀ s : State, Inv s → s.ports.rst = false → s.phase ≠ .idle → ∃ (t : State) (r : BitVec 6),
    s.ctr = some r ∧ step s = .next t ∧
    (s.phase = .keyexp → r.toNat ≤ 42 → t.phase = .keyexp ∧ t.ctr = some (r + 1) ∧ t.rsp = none) ∧
    (s.phase = .keyexp → r.toNat = 43 → t.phase = .idle ∧ t.ctr = none ∧ t.rsp = some ⟨.ok, none⟩) ∧
    (s.phase = .enc → r.toNat ≤ 9 → t.phase = .enc ∧ t.ctr = some (r + 1) ∧ t.rsp = none) ∧
    (s.phase = .enc → r.toNat = 10 → t.phase = .idle ∧ t.ctr = none ∧ ∃ b, t.rsp = some ⟨.ok, some b⟩) ∧
    (s.phase = .dec → 1 ≤ r.toNat → t.phase = .dec ∧ t.ctr = some (r - 1) ∧ t.rsp = none) ∧
    (s.phase = .dec → r.toNat = 0 → t.phase = .idle ∧ t.ctr = none ∧ ∃ b, t.rsp = some ⟨.ok, some b⟩)) ∧
  (∀ (s : State) (r : BitVec 6), Running s → s.ctr = some r →
    (s.phase = .keyexp ∧ ¬ (4 ≤ r.toNat ∧ r.toNat ≤ 43)) ∨ (s.phase = .enc ∧ ¬ (1 ≤ r.toNat ∧ r.toNat ≤ 10)) ∨
      (s.phase = .dec ∧ 9 < r.toNat) → step s = .fault .badSequence) ∧
  ∀ s : State, Running s → s.phase ≠ .idle → s.ctr = none → step s = .fault .noneCounter

/-! ### Reset and the ports -/

/-- R230, R231: while `rst = 1` a step sets every element to its reset value, from any state, a command in flight or not;
only what the host will drive later is kept. The last three clauses are about the model's own fields (log 2, log 4, log
5). -/
def Obligations.ResetClearsEverything : Prop :=
  ∀ s : State, s.ports.rst = true → ∃ t : State, step s = .next t ∧ (∀ i : Fin 44, t.W[i] = none) ∧ t.keyValid = false ∧
    t.st = none ∧ t.ctr = none ∧ t.phase = .idle ∧ t.rsp = none ∧ t.out = none ∧ t.uopSlot = none ∧ t.host = s.host.tail

/-- R36, R233: the reset values, and the output ports after reset: ready for a command, no response, no value on the ports. -/
def Obligations.ResetValues : Prop :=
  (∀ i : Fin 44, State.reset.W[i] = none) ∧ State.reset.keyValid = false ∧ State.reset.st = none ∧
  State.reset.phase = .idle ∧ State.reset.ctr = none ∧ State.reset.rsp = none ∧ State.reset.cmdReady = true ∧
  State.reset.rspValid = false ∧ State.reset.rspStatus = none ∧ State.reset.dout = none

/-- R26, R28, R80, R81: the output ports as functions of the state, and the five status codes. -/
def Obligations.OutputPortsShowResponse : Prop :=
  (∀ s : State, (s.cmdReady = true ↔ s.phase = .idle) ∧ (s.rspValid = true ↔ s.rsp ≠ none) ∧
    (s.rsp = none → s.rspStatus = none ∧ s.dout = none)) ∧
  (∀ (s : State) (r : Response), s.rsp = some r → s.rspStatus = some r.status.code ∧ s.dout = r.data) ∧
  Status.ok.code = 0 ∧ Status.invalidKeyLength.code = 1 ∧ Status.invalidBlockLength.code = 2 ∧ Status.noKey.code = 3 ∧
  Status.illegalCommand.code = 4 ∧ ∀ e : Status, e.code.toNat ≤ 4

/-! ### Invariants -/

/-- R37: every invariant of the list holds after reset, whatever the host will do. The spec derives R37. -/
def Obligations.InvariantsHoldAtReset : Prop :=
  ∀ h : List HostDrive, Inv { State.reset with host := h } ∧ RspInv { State.reset with host := h } ∧
    ScheduleInv { State.reset with host := h }

/-- R37: every step keeps the invariants, whatever the host drives, reset included. The spec derives R37; the clauses on
`st` in KEYEXP (R23) and on the model's own fields (log 4, log 5) are the model's. -/
def Obligations.StepKeepsInvariants : Prop :=
  ∀ s t : State, Inv s → step s = .next t → Inv t

/-- R207, R208: no reachable state produces a model fault or a refusal: from a state that meets the invariants every step
answers a next state. -/
def Obligations.ReachableNeverStops : Prop :=
  (∀ s : State, Inv s → ∃ t : State, step s = .next t) ∧ ∀ s : State, Reachable s → Inv s ∧ ∃ t : State, step s = .next t

/-- R22: every step keeps it true that while `key_valid = 1` `W` is the complete schedule of one key, and that a schedule
under construction is that of one key so far. -/
def Obligations.StepKeepsSchedule : Prop :=
  ∀ s t : State, Inv s → ScheduleInv s → step s = .next t → ScheduleInv t

/-- R27: every step keeps it true that a response carries a block only with status OK. -/
def Obligations.StepKeepsResponseData : Prop :=
  ∀ s t : State, Inv s → RspInv s → step s = .next t → RspInv t

/-- R57, R236: `W` and `key_valid` change only by reset, by the acceptance of a KEY_LOAD with `LEN = 16`, or by a KEXP
step of one; every other step, an error's among them, leaves the key in place. The spec derives R236. -/
def Obligations.KeyStaysLoaded : Prop :=
  ∀ s t : State, Inv s → step s = .next t → s.ports.rst = false → s.phase ≠ .keyexp →
    ¬ (s.phase = .idle ∧ s.ports.cmdValid = true ∧ s.ports.cmdWord = word32 16 0 0x1) → t.W = s.W ∧ t.keyValid = s.keyValid

/-! ### Runs -/

/-- R165, R114, R179: a valid KEY_LOAD takes 41 steps, 40 of them in KEYEXP without a response, and ends with
`W = KEYEXPAND(key)`, `key_valid = 1` and the response (OK, none), if no reset intervenes. -/
def Obligations.KeyLoadRunsExpansion : Prop :=
  ∀ (s : State) (key : Block) (hold : Bool), s.phase = .idle → s.uopSlot = none → s.ports = validOffer 0x1 key hold →
    NoReset s → (∃ t : State, runSteps 41 s = .next t ∧ t.phase = .idle ∧ t.ctr = none ∧ t.keyValid = true ∧
      t.rsp = some ⟨.ok, none⟩ ∧ (keyExpand key).length = 44 ∧ ∀ i : Fin 44, t.W[i] = (keyExpand key)[i.val]?) ∧
    ∀ k, 1 ≤ k → k ≤ 40 → ∃ u : State, runSteps k s = .next u ∧ u.phase = .keyexp ∧ u.rsp = none

/-- R174, R179: a valid ENCRYPT takes 11 steps and ends with the response `(OK, ENC_BLOCK(W, b))`, `st` discarded, `W` and
`key_valid` as they were, if no reset intervenes. The spec derives R174 and R179. -/
def Obligations.EncryptRunsEncBlock : Prop :=
  ∀ (s : State) (ws : Vector Word 44) (b : Block) (hold : Bool), s.phase = .idle → s.uopSlot = none → s.keyValid = true →
    Holds s.W ws → s.ports = validOffer 0x2 b hold → NoReset s →
    (∃ t : State, runSteps 11 s = .next t ∧ t.phase = .idle ∧ t.ctr = none ∧ t.st = none ∧ t.W = s.W ∧
      t.keyValid = true ∧ t.rsp = some ⟨.ok, some (encBlock ws.toList b)⟩) ∧
    ∀ k, 1 ≤ k → k ≤ 10 → ∃ u : State, runSteps k s = .next u ∧ u.phase = .enc ∧ u.rsp = none

/-- R175, R179: a valid DECRYPT takes 11 steps and ends with the response `(OK, DEC_BLOCK(W, b))`, if no reset intervenes.
The spec derives R175 and R179. -/
def Obligations.DecryptRunsDecBlock : Prop :=
  ∀ (s : State) (ws : Vector Word 44) (b : Block) (hold : Bool), s.phase = .idle → s.uopSlot = none → s.keyValid = true →
    Holds s.W ws → s.ports = validOffer 0x3 b hold → NoReset s →
    (∃ t : State, runSteps 11 s = .next t ∧ t.phase = .idle ∧ t.ctr = none ∧ t.st = none ∧ t.W = s.W ∧
      t.keyValid = true ∧ t.rsp = some ⟨.ok, some (decBlock ws.toList b)⟩) ∧
    ∀ k, 1 ≤ k → k ≤ 10 → ∃ u : State, runSteps k s = .next u ∧ u.phase = .dec ∧ u.rsp = none

/-- R66, R240: a host that offers a valid KEY_LOAD and then holds a valid ENCRYPT gets, 52 steps later, the ENC_BLOCK of
its block under the schedule of that key, if it asserts no reset: the held offer waits for the expansion and uses its
schedule. The spec derives R240; the host list is the model's (log 2). -/
def Obligations.KeyThenEncryptUsesKey : Prop :=
  ∀ (s : State) (key b : Block) (hold : Bool) (rest : List HostDrive), s.phase = .idle → s.uopSlot = none →
    s.host = validOffer 0x1 key hold :: validOffer 0x2 b true :: rest → NoReset s →
    ∃ t : State, runSteps 52 s = .next t ∧ t.phase = .idle ∧ t.rsp = some ⟨.ok, some (encBlock (keyExpand key) b)⟩

/-- R175: the source's round-trip property, for every list of words as the schedule, KEYEXPAND's among them, and every
block, both ways. The spec derives the second direction. -/
def Obligations.CipherRoundTrip : Prop :=
  ∀ (ws : List Word) (b : Block), decBlock ws (encBlock ws b) = b ∧ encBlock ws (decBlock ws b) = b

/-- R176: the states of DEC_BLOCK on the block that ENC_BLOCK produced are ENC_BLOCK's own after its SHIFTROWS. The spec
derives R176. -/
def Obligations.DecryptRetracesEncrypt : Prop :=
  ∀ (ws : List Word) (b : Block) (r : Nat), 1 ≤ r → r ≤ 10 → decAfter ws (encBlock ws b) r = encShifted ws b r

/-- R178, R180, R242: a command in flight ends. From a state that meets the invariants with `phase` not IDLE, if no reset
comes, the core is IDLE with a response after exactly `44 - ctr`, `11 - ctr` or `ctr + 1` steps. -/
def Obligations.CommandInFlightEnds : Prop :=
  ∀ (s : State) (r : BitVec 6), Inv s → NoReset s → s.ctr = some r → ∃ t : State,
    runSteps (match s.phase with | .idle => 0 | .keyexp => 44 - r.toNat | .enc => 11 - r.toNat | .dec => r.toNat + 1) s =
      .next t ∧ t.phase = .idle ∧ ∃ a : Response, t.rsp = some a ∧ a.status = .ok

/-- R243, R178: the sequence of steps does not depend on key or block values. Two states that meet the invariants and agree
but for key data, block data and operands agree so after any number of steps. -/
def Obligations.SequencingIgnoresData : Prop :=
  ∀ (k : Nat) (s t s' : State), Inv s → Inv t → SameControl s t → runSteps k s = .next s' →
    ∃ t' : State, runSteps k t = .next t' ∧ SameControl s' t'
end

