-- ==== Sys2Proof/Laws/State.lean ====
section
/-! SUPPORT. One lemma per field for each named update of the state, so that no later proof unfolds a record update. -/

namespace Sys2Proof.Machine

variable (s : State) (e : Status) (d : Option Block) (i : Nat) (v : Word) (cw : BitVec 32)

/-! ### respond -/

@[simp] theorem State.respond_W : (s.respond e d).W = s.W := rfl
@[simp] theorem State.respond_keyValid : (s.respond e d).keyValid = s.keyValid := rfl
@[simp] theorem State.respond_st : (s.respond e d).st = s.st := rfl
@[simp] theorem State.respond_phase : (s.respond e d).phase = s.phase := rfl
@[simp] theorem State.respond_ctr : (s.respond e d).ctr = s.ctr := rfl
@[simp] theorem State.respond_rsp : (s.respond e d).rsp = some ⟨e, d⟩ := rfl
@[simp] theorem State.respond_out : (s.respond e d).out = s.out := rfl
@[simp] theorem State.respond_uopSlot : (s.respond e d).uopSlot = s.uopSlot := rfl
@[simp] theorem State.respond_host : (s.respond e d).host = s.host := rfl

/-! ### writeW -/

@[simp] theorem State.writeW_W : (s.writeW i v).W = s.W.setIfInBounds i (some v) := rfl
@[simp] theorem State.writeW_keyValid : (s.writeW i v).keyValid = s.keyValid := rfl
@[simp] theorem State.writeW_st : (s.writeW i v).st = s.st := rfl
@[simp] theorem State.writeW_phase : (s.writeW i v).phase = s.phase := rfl
@[simp] theorem State.writeW_ctr : (s.writeW i v).ctr = s.ctr := rfl
@[simp] theorem State.writeW_rsp : (s.writeW i v).rsp = s.rsp := rfl
@[simp] theorem State.writeW_out : (s.writeW i v).out = s.out := rfl
@[simp] theorem State.writeW_uopSlot : (s.writeW i v).uopSlot = s.uopSlot := rfl
@[simp] theorem State.writeW_host : (s.writeW i v).host = s.host := rfl

/-! ### popHost and waitHost -/

@[simp] theorem State.popHost_W : s.popHost.W = s.W := rfl
@[simp] theorem State.popHost_keyValid : s.popHost.keyValid = s.keyValid := rfl
@[simp] theorem State.popHost_st : s.popHost.st = s.st := rfl
@[simp] theorem State.popHost_phase : s.popHost.phase = s.phase := rfl
@[simp] theorem State.popHost_ctr : s.popHost.ctr = s.ctr := rfl
@[simp] theorem State.popHost_rsp : s.popHost.rsp = s.rsp := rfl
@[simp] theorem State.popHost_out : s.popHost.out = s.out := rfl
@[simp] theorem State.popHost_uopSlot : s.popHost.uopSlot = s.uopSlot := rfl
@[simp] theorem State.popHost_host : s.popHost.host = s.host.tail := rfl

/-- The drives left after a step that accepts nothing. -/
def waitedHost (h : List HostDrive) : List HostDrive :=
  if (h.headD HostDrive.quiet).cmdValid && (h.headD HostDrive.quiet).hold then h else h.tail

theorem State.waitHost_eq : s.waitHost = { s with host := waitedHost s.host } := by
  unfold State.waitHost waitedHost State.ports State.popHost
  split <;> simp_all

@[simp] theorem State.waitHost_W : s.waitHost.W = s.W := by rw [State.waitHost_eq]
@[simp] theorem State.waitHost_keyValid : s.waitHost.keyValid = s.keyValid := by rw [State.waitHost_eq]
@[simp] theorem State.waitHost_st : s.waitHost.st = s.st := by rw [State.waitHost_eq]
@[simp] theorem State.waitHost_phase : s.waitHost.phase = s.phase := by rw [State.waitHost_eq]
@[simp] theorem State.waitHost_ctr : s.waitHost.ctr = s.ctr := by rw [State.waitHost_eq]
@[simp] theorem State.waitHost_rsp : s.waitHost.rsp = s.rsp := by rw [State.waitHost_eq]
@[simp] theorem State.waitHost_out : s.waitHost.out = s.out := by rw [State.waitHost_eq]
@[simp] theorem State.waitHost_uopSlot : s.waitHost.uopSlot = s.uopSlot := by rw [State.waitHost_eq]
@[simp] theorem State.waitHost_host : s.waitHost.host = waitedHost s.host := by rw [State.waitHost_eq]

/-- What the host has left is a part of what it had: the list itself or its tail. -/
theorem waitedHost_eq (h : List HostDrive) : waitedHost h = h ∨ waitedHost h = h.tail := by
  unfold waitedHost
  split
  · exact .inl rfl
  · exact .inr rfl

theorem mem_of_mem_waitedHost {h : List HostDrive} {d : HostDrive} (hd : d ∈ waitedHost h) : d ∈ h := by
  rcases waitedHost_eq h with e | e <;> rw [e] at hd
  · exact hd
  · exact List.mem_of_mem_tail hd

/-! ### The ports -/

theorem State.ports_eq (s : State) : s.ports = s.host.headD HostDrive.quiet := rfl
theorem State.din_eq (s : State) : s.din = (s.host.headD HostDrive.quiet).din := rfl

/-- A host that asserts no reset asserts none in this step. -/
theorem NoReset.ports {s : State} (h : NoReset s) : s.ports.rst = false := by
  unfold State.ports
  cases hs : s.host with
  | nil => rfl
  | cons d ds => exact h d (by simp [hs])

/-! ### offer -/

@[simp] theorem State.offer_ports : (s.offer cw).ports = ⟨false, true, cw, 0, true⟩ := rfl
@[simp] theorem State.offer_phase : (s.offer cw).phase = s.phase := rfl
@[simp] theorem State.offer_uopSlot : (s.offer cw).uopSlot = s.uopSlot := rfl

/-! ### reset -/

@[simp] theorem resetStep_host : (resetStep s).host = s.host.tail := rfl
@[simp] theorem resetStep_phase : (resetStep s).phase = .idle := rfl
@[simp] theorem resetStep_keyValid : (resetStep s).keyValid = false := rfl
@[simp] theorem resetStep_st : (resetStep s).st = none := rfl
@[simp] theorem resetStep_ctr : (resetStep s).ctr = none := rfl
@[simp] theorem resetStep_rsp : (resetStep s).rsp = none := rfl
@[simp] theorem resetStep_out : (resetStep s).out = none := rfl
@[simp] theorem resetStep_uopSlot : (resetStep s).uopSlot = none := rfl
@[simp] theorem resetStep_W : (resetStep s).W = Vector.replicate 44 none := rfl

end Sys2Proof.Machine
end

