-- ==== Sys2Proof/Laws/Bytes.lean ====
section
/-! SUPPORT. Byte numbering: packing and taking bytes undo each other (R13, R14), and so do building and reading the 4 x 4
array (R12). -/

namespace Sys2Proof.Machine

/-! ### Words and blocks as their bytes -/

theorem wordByte_packWord (b0 b1 b2 b3 : Byte) :
    wordByte (packWord b0 b1 b2 b3) 0 = b0 ∧ wordByte (packWord b0 b1 b2 b3) 1 = b1 ∧
    wordByte (packWord b0 b1 b2 b3) 2 = b2 ∧ wordByte (packWord b0 b1 b2 b3) 3 = b3 := by
  refine ⟨?_, ?_, ?_, ?_⟩ <;>
  · apply BitVec.eq_of_getLsbD_eq
    intro i hi
    simp only [wordByte, packWord, BitVec.getLsbD_extractLsb', BitVec.getLsbD_append, hi]
    simp
    interval_cases i <;> simp

theorem packWord_wordByte (w : Word) : packWord (wordByte w 0) (wordByte w 1) (wordByte w 2) (wordByte w 3) = w := by
  apply BitVec.eq_of_getLsbD_eq
  intro i hi
  simp only [wordByte, packWord, BitVec.getLsbD_extractLsb', BitVec.getLsbD_append]
  interval_cases i <;> simp

/-- A four-byte field of a wider value is its four bytes packed (R13, R112). -/
theorem packWord_extract (v : Block) (k : Nat) :
    packWord (v.extractLsb' (k + 24) 8) (v.extractLsb' (k + 16) 8) (v.extractLsb' (k + 8) 8) (v.extractLsb' k 8) =
      v.extractLsb' k 32 := by
  apply BitVec.eq_of_getLsbD_eq
  intro i hi
  simp only [packWord, BitVec.getLsbD_extractLsb', BitVec.getLsbD_append]
  interval_cases i <;> simp [Nat.add_assoc]

/-- R112: key word `i` is `din[127-32i : 96-32i]`. -/
theorem keyWord_eq (d : Block) (i : Nat) (h : i < 4) : keyWord d i = d.extractLsb' (96 - 32 * i) 32 := by
  rw [← packWord_extract]
  unfold keyWord portByte
  congr 2 <;> omega

theorem packWords_extract (w0 w1 w2 w3 : Word) :
    (packWords w0 w1 w2 w3).extractLsb' 96 32 = w0 ∧ (packWords w0 w1 w2 w3).extractLsb' 64 32 = w1 ∧
    (packWords w0 w1 w2 w3).extractLsb' 32 32 = w2 ∧ (packWords w0 w1 w2 w3).extractLsb' 0 32 = w3 := by
  refine ⟨?_, ?_, ?_, ?_⟩ <;>
  · apply BitVec.eq_of_getLsbD_eq
    intro i hi
    simp only [packWords, BitVec.getLsbD_extractLsb', BitVec.getLsbD_append]
    interval_cases i <;> simp

theorem packWords_of_extract (v : Block) :
    packWords (v.extractLsb' 96 32) (v.extractLsb' 64 32) (v.extractLsb' 32 32) (v.extractLsb' 0 32) = v := by
  apply BitVec.eq_of_getLsbD_eq
  intro i hi
  simp only [packWords, BitVec.getLsbD_extractLsb', BitVec.getLsbD_append]
  interval_cases i <;> simp

/-- A byte of a port value is a byte of one of its four words (R60). -/
theorem portByte_eq_wordByte (v : Block) (c j : Nat) (hc : c < 4) (hj : j < 4) :
    portByte v (4 * c + j) = wordByte (v.extractLsb' (96 - 32 * c) 32) j := by
  unfold portByte wordByte
  apply BitVec.eq_of_getLsbD_eq
  intro i hi
  rw [BitVec.getLsbD_extractLsb', BitVec.getLsbD_extractLsb', BitVec.getLsbD_extractLsb']
  rw [decide_eq_true (show 24 - 8 * j + i < 32 by omega), Bool.true_and]
  congr 2
  omega

/-- R14: byte `i` of a packed block. -/
theorem portByte_packBlock (f : Nat → Byte) (i : Nat) (h : i < 16) : portByte (packBlock f) i = f i := by
  have key : ∀ c j, c < 4 → j < 4 → portByte (packBlock f) (4 * c + j) = f (4 * c + j) := by
    intro c j hc hj
    rw [portByte_eq_wordByte _ c j hc hj]
    obtain ⟨e0, e1, e2, e3⟩ := packWords_extract (packWord (f 0) (f 1) (f 2) (f 3)) (packWord (f 4) (f 5) (f 6) (f 7))
      (packWord (f 8) (f 9) (f 10) (f 11)) (packWord (f 12) (f 13) (f 14) (f 15))
    interval_cases c <;> simp only [packBlock, Nat.mul_zero, Nat.sub_zero, Nat.mul_one] <;>
      simp only [e0, e1, e2, e3, Nat.reduceMul, Nat.reduceSub] <;> interval_cases j <;> simp [wordByte_packWord]
  have := key (i / 4) (i % 4) (by omega) (by omega)
  rwa [show 4 * (i / 4) + i % 4 = i by omega] at this

/-- R14: a block is its bytes packed. -/
theorem packBlock_portByte (v : Block) : packBlock (portByte v) = v := by
  have w : ∀ c, c < 4 → packWord (portByte v (4 * c)) (portByte v (4 * c + 1)) (portByte v (4 * c + 2))
      (portByte v (4 * c + 3)) = v.extractLsb' (96 - 32 * c) 32 := fun c hc => keyWord_eq v c hc
  have h := packWords_of_extract v
  rw [← w 0 (by omega), ← w 1 (by omega), ← w 2 (by omega), ← w 3 (by omega)] at h
  exact h

theorem packBlock_congr {f g : Nat → Byte} (h : ∀ i, i < 16 → f i = g i) : packBlock f = packBlock g := by
  simp [packBlock, h]

/-! ### The byte array -/

@[simp] theorem StateArr.byteAt_build (f : Fin 4 → Fin 4 → Byte) (r c : Fin 4) : (StateArr.build f).byteAt r c = f r c := by
  fin_cases r <;> fin_cases c <;> rfl

theorem StateArr.byteAt_eq (a : StateArr) (r c : Fin 4) : a.byteAt r c = a[r][c] := rfl

theorem StateArr.ext_byteAt {a b : StateArr} (h : ∀ r c, a.byteAt r c = b.byteAt r c) : a = b := by
  apply Vector.ext
  intro i hi
  apply Vector.ext
  intro j hj
  exact h ⟨i, hi⟩ ⟨j, hj⟩

theorem StateArr.build_byteAt (a : StateArr) : StateArr.build a.byteAt = a :=
  StateArr.ext_byteAt fun r c => StateArr.byteAt_build _ r c

@[simp] theorem byteAt_blockToState (b : Block) (r c : Fin 4) :
    (blockToState b).byteAt r c = portByte b (4 * c.val + r.val) := StateArr.byteAt_build _ r c

/-- R131: byte `4c + r` of the serialized block is `s[r][c]`. -/
theorem portByte_stateToBlock (a : StateArr) (r c : Fin 4) : portByte (stateToBlock a) (4 * c.val + r.val) = a.byteAt r c := by
  rw [stateToBlock, portByte_packBlock _ _ (by omega)]
  congr 1
  · apply Fin.ext; simp [Fin.ofNat]
  · apply Fin.ext; simp only [Fin.ofNat]; omega

/-- R131: STORE_STATE undoes LOAD_STATE. -/
@[simp] theorem stateToBlock_blockToState (b : Block) : stateToBlock (blockToState b) = b := by
  conv_rhs => rw [← packBlock_portByte b]
  apply packBlock_congr
  intro i hi
  rw [byteAt_blockToState]
  congr 1
  simp only [Fin.ofNat]
  omega

@[simp] theorem blockToState_stateToBlock (a : StateArr) : blockToState (stateToBlock a) = a :=
  StateArr.ext_byteAt fun r c => by rw [byteAt_blockToState, portByte_stateToBlock]

end Sys2Proof.Machine
end

