-- ==== Sys2Proof/Laws/Ops.lean ====
section
/-! SUPPORT. One lemma per shared operation that says all it can do, and one per micro-operation that says when it answers a
next state and which. -/

namespace Sys2Proof.Machine

/-! ### Sequencing -/

@[simp] theorem andThen_next (s : State) (k : State → Result) : andThen (.next s) k = k s := rfl
@[simp] theorem andThen_fault (f : Fault) (k : State → Result) : andThen (.fault f) k = .fault f := rfl
@[simp] theorem andThen_refused (r : Refusal) (k : State → Result) : andThen (.refused r) k = .refused r := rfl

theorem next_eq_next {s t : State} : (.next s : Result) = .next t ↔ t = s :=
  ⟨fun h => by cases h; rfl, fun h => by rw [h]⟩

/-- A sequence answers a next state when both parts do. -/
theorem andThen_eq_next {o : Result} {k : State → Result} {t : State} :
    andThen o k = .next t ↔ ∃ u, o = .next u ∧ k u = .next t := by
  cases o <;> simp

theorem andThen_assoc (o : Result) (k l : State → Result) :
    andThen (andThen o k) l = andThen o fun s => andThen (k s) l := by
  cases o <;> rfl

@[simp] theorem andPopHost_next (s : State) : andPopHost (.next s) = .next s.popHost := rfl
@[simp] theorem andWaitHost_next (s : State) : andWaitHost (.next s) = .next s.waitHost := rfl

theorem andPopHost_eq_next {o : Result} {t : State} : andPopHost o = .next t ↔ ∃ u, o = .next u ∧ t = u.popHost := by
  simp only [andPopHost, andThen_eq_next]
  constructor
  · rintro ⟨u, hu, ht⟩; cases ht; exact ⟨u, hu, rfl⟩
  · rintro ⟨u, hu, rfl⟩; exact ⟨u, hu, rfl⟩

theorem andWaitHost_eq_next {o : Result} {t : State} : andWaitHost o = .next t ↔ ∃ u, o = .next u ∧ t = u.waitHost := by
  simp only [andWaitHost, andThen_eq_next]
  constructor
  · rintro ⟨u, hu, ht⟩; cases ht; exact ⟨u, hu, rfl⟩
  · rintro ⟨u, hu, rfl⟩; exact ⟨u, hu, rfl⟩

/-! ### Reads -/

theorem withW_of_some {i : Nat} {s : State} {w : Word} (h : s.W[i]? = some (some w)) (k : Word → Result) :
    withW i s k = k w := by simp [withW, h]

theorem withW_of_none {i : Nat} {s : State} (h : ∀ w, s.W[i]? ≠ some (some w)) (k : Word → Result) :
    withW i s k = .fault (.noneKeyWord i) := by
  unfold withW
  split
  · exact absurd ‹_› (h _)
  · rfl

/-- A read of `W[i]` answers a next state when the cell holds a word and what follows does. -/
theorem withW_eq_next {i : Nat} {s t : State} {k : Word → Result} :
    withW i s k = .next t ↔ ∃ w, s.W[i]? = some (some w) ∧ k w = .next t := by
  constructor
  · intro h
    by_cases hw : ∃ w, s.W[i]? = some (some w)
    · obtain ⟨w, hw⟩ := hw
      exact ⟨w, hw, by rwa [withW_of_some hw] at h⟩
    · rw [withW_of_none (fun w e => hw ⟨w, e⟩)] at h
      cases h
  · rintro ⟨w, hw, h⟩
    rwa [withW_of_some hw]

theorem withSt_of_some {s : State} {a : StateArr} (h : s.st = some a) (k : StateArr → Result) : withSt s k = k a := by
  simp [withSt, h]

theorem withSt_of_none {s : State} (h : s.st = none) (k : StateArr → Result) : withSt s k = .fault .noneState := by
  simp [withSt, h]

theorem withSt_eq_next {s t : State} {k : StateArr → Result} :
    withSt s k = .next t ↔ ∃ a, s.st = some a ∧ k a = .next t := by
  cases h : s.st with
  | none => simp [withSt_of_none h]
  | some a => simp [withSt_of_some h]

theorem mapSt_of_some {s : State} {a : StateArr} (h : s.st = some a) (f : StateArr → StateArr) :
    mapSt f s = .next { s with st := some (f a) } := withSt_of_some h _

theorem mapSt_of_none {s : State} (h : s.st = none) (f : StateArr → StateArr) : mapSt f s = .fault .noneState :=
  withSt_of_none h _

/-- A micro-operation on `st` answers a next state when `st` holds an array; only `st` changes. -/
theorem mapSt_eq_next {s t : State} {f : StateArr → StateArr} :
    mapSt f s = .next t ↔ ∃ a, s.st = some a ∧ t = { s with st := some (f a) } := by
  simp only [mapSt, withSt_eq_next, next_eq_next]

/-- The round key `r` that stands in `W` (R56). -/
def RoundKeyAt (s : State) (r : Nat) (ks : Vector Word 4) : Prop := ∀ c : Fin 4, s.W[4 * r + c.val]? = some (some ks[c])

theorem withRoundKey_of {s : State} {r : Nat} {ks : Vector Word 4} (h : RoundKeyAt s r ks) (k : Vector Word 4 → Result) :
    withRoundKey r s k = k ks := by
  unfold withRoundKey
  have h0 : s.W[4 * r]? = some (some ks[0]) := h 0
  have h1 : s.W[4 * r + 1]? = some (some ks[1]) := h 1
  have h2 : s.W[4 * r + 2]? = some (some ks[2]) := h 2
  have h3 : s.W[4 * r + 3]? = some (some ks[3]) := h 3
  rw [withW_of_some h0, withW_of_some h1, withW_of_some h2, withW_of_some h3]
  congr 1
  apply Vector.ext
  intro i hi
  interval_cases i <;> rfl

theorem withRoundKey_eq_next {s t : State} {r : Nat} {k : Vector Word 4 → Result} :
    withRoundKey r s k = .next t ↔ ∃ ks, RoundKeyAt s r ks ∧ k ks = .next t := by
  constructor
  · intro h
    simp only [withRoundKey, withW_eq_next] at h
    obtain ⟨k0, h0, k1, h1, k2, h2, k3, h3, h⟩ := h
    refine ⟨_, fun c => ?_, h⟩
    fin_cases c
    · exact h0
    · exact h1
    · exact h2
    · exact h3
  · rintro ⟨ks, hks, h⟩
    rwa [withRoundKey_of hks]

/-! ### Accept and raise -/

@[simp] theorem raise_eq (e : Status) (s : State) : raise e s = .next (s.respond e none) := rfl

theorem accept_idle {s : State} (h : s.phase = .idle) (k : State → Result) : accept s k = k { s with rsp := none } := by
  simp [accept, h]

theorem accept_busy {s : State} (h : s.phase ≠ .idle) (k : State → Result) : accept s k = .next s := by
  simp [accept, h]

/-! ### The key-schedule store -/

theorem getElem?_setW (W : KeyStore) (i j : Nat) (x : Option Word) :
    (W.setIfInBounds i x)[j]? = if i = j ∧ j < 44 then some x else W[j]? := by
  rw [Vector.getElem?_setIfInBounds]
  by_cases h : i = j
  · subst h
    by_cases hi : i < 44
    · simp [hi]
    · simp [hi]
  · simp [h]

theorem getElem?_foldl_setW (f : Nat → Nat) (g : Nat → Option Word) (n : Nat) (W : KeyStore) (j : Nat)
    (hf : ∀ i k, f i = f k → i = k) :
    ((List.range n).foldl (fun acc i => acc.setIfInBounds (f i) (g i)) W)[j]? =
      if h : ∃ i, i < n ∧ f i = j ∧ j < 44 then some (g h.choose) else W[j]? := by
  induction n with
  | zero => simp
  | succ n ih =>
    rw [List.range_succ, List.foldl_append, List.foldl_cons, List.foldl_nil, getElem?_setW, ih]
    by_cases hn : f n = j ∧ j < 44
    · rw [if_pos hn]
      have hex : ∃ i, i < n + 1 ∧ f i = j ∧ j < 44 := ⟨n, by omega, hn⟩
      rw [dif_pos hex]
      rw [hf hex.choose n (hex.choose_spec.2.1.trans hn.1.symm)]
    · rw [if_neg hn]
      by_cases hex : ∃ i, i < n ∧ f i = j ∧ j < 44
      · have hex' : ∃ i, i < n + 1 ∧ f i = j ∧ j < 44 := by obtain ⟨i, hi, h⟩ := hex; exact ⟨i, by omega, h⟩
        rw [dif_pos hex, dif_pos hex']
        rw [hf hex.choose hex'.choose (hex.choose_spec.2.1.trans hex'.choose_spec.2.1.symm)]
      · have hex' : ¬ ∃ i, i < n + 1 ∧ f i = j ∧ j < 44 := by
          rintro ⟨i, hi, h⟩
          rcases Nat.lt_succ_iff_lt_or_eq.mp hi with hlt | heq
          · exact hex ⟨i, hlt, h⟩
          · exact hn (heq ▸ h)
        rw [dif_neg hex, dif_neg hex']

/-- R112: what LOAD_KEY leaves in `W`. -/
theorem getElem?_loadKeyWords (d : Block) (W : KeyStore) (j : Nat) :
    (loadKeyWords d W)[j]? = if j < 4 then some (some (keyWord d j)) else W[j]? := by
  have e := getElem?_foldl_setW (fun i => i) (fun i => some (keyWord d i)) 4 W j (fun _ _ h => h)
  rw [loadKeyWords, e]
  by_cases hj : j < 4
  · have hex : ∃ i, i < 4 ∧ i = j ∧ j < 44 := ⟨j, hj, rfl, by omega⟩
    rw [dif_pos hex, if_pos hj, show hex.choose = j from hex.choose_spec.2.1]
  · rw [dif_neg (by rintro ⟨i, hi, rfl, _⟩; exact hj hi), if_neg hj]

/-- R163: what discarding the old schedule leaves in `W`. -/
theorem getElem?_discardWords (W : KeyStore) (j : Nat) :
    (discardWords W)[j]? = if 4 ≤ j ∧ j < 44 then some none else W[j]? := by
  rw [discardWords, getElem?_foldl_setW (· + 4) (fun _ => none) 40 W j (fun i k h => by simpa using h)]
  by_cases hj : 4 ≤ j ∧ j < 44
  · rw [dif_pos ⟨j - 4, by omega, by omega, hj.2⟩, if_pos hj]
  · rw [dif_neg (by rintro ⟨i, hi, rfl, h⟩; exact hj ⟨by omega, h⟩), if_neg hj]

theorem getElem_eq_iff_getElem? (W : KeyStore) (i : Fin 44) (x : Option Word) : W[i] = x ↔ W[i.val]? = some x := by
  rw [Vector.getElem?_eq_some_iff]
  exact ⟨fun h => ⟨i.isLt, h⟩, fun ⟨_, h⟩ => h⟩

/-! ### The micro-operations -/

/-- R113: KEXP_WORD answers a next state when its index is legal and the two cells it reads hold words. -/
theorem execKexpWord_eq_next {s t : State} {i : BitVec 6} :
    execKexpWord i s = .next t ↔ 4 ≤ i.toNat ∧ i.toNat ≤ 43 ∧ ∃ u p, s.W[i.toNat - 1]? = some (some u) ∧
      s.W[i.toNat - 4]? = some (some p) ∧ t = s.writeW i.toNat (p ^^^ kexpTemp i.toNat u) := by
  unfold execKexpWord
  by_cases h : 4 ≤ i.toNat ∧ i.toNat ≤ 43
  · rw [if_pos h]
    simp only [withW_eq_next, Host.Outcome.next.injEq, h.1, h.2, true_and]
    constructor
    · rintro ⟨u, hu, p, hp, ht⟩; exact ⟨u, p, hu, hp, ht.symm⟩
    · rintro ⟨u, p, hu, hp, ht⟩; exact ⟨u, hu, p, hp, ht.symm⟩
  · rw [if_neg h]
    constructor
    · intro e; cases e
    · rintro ⟨h1, h2, _⟩; exact absurd ⟨h1, h2⟩ h

theorem execKexpWord_of {s : State} {i : BitVec 6} {u p : Word} (h1 : 4 ≤ i.toNat) (h2 : i.toNat ≤ 43)
    (hu : s.W[i.toNat - 1]? = some (some u)) (hp : s.W[i.toNat - 4]? = some (some p)) :
    execKexpWord i s = .next (s.writeW i.toNat (p ^^^ kexpTemp i.toNat u)) :=
  execKexpWord_eq_next.mpr ⟨h1, h2, u, p, hu, hp, rfl⟩

/-- R132: ADDROUNDKEY answers a next state when its index is legal, `st` holds an array and the round key is there. -/
theorem execAddRoundKey_eq_next {s t : State} {r : BitVec 6} :
    execAddRoundKey r s = .next t ↔ r.toNat ≤ 10 ∧ ∃ a ks, s.st = some a ∧ RoundKeyAt s r.toNat ks ∧
      t = { s with st := some (addRoundKey ks a) } := by
  unfold execAddRoundKey
  by_cases h : r.toNat ≤ 10
  · rw [if_pos h]
    simp only [withSt_eq_next, withRoundKey_eq_next, Host.Outcome.next.injEq, h, true_and]
    constructor
    · rintro ⟨a, ha, ks, hks, ht⟩; exact ⟨a, ks, ha, hks, ht.symm⟩
    · rintro ⟨a, ks, ha, hks, ht⟩; exact ⟨a, ha, ks, hks, ht.symm⟩
  · rw [if_neg h]
    constructor
    · intro e; cases e
    · rintro ⟨h1, _⟩; exact absurd h1 h

theorem execAddRoundKey_of {s : State} {r : BitVec 6} {a : StateArr} {ks : Vector Word 4} (h : r.toNat ≤ 10)
    (ha : s.st = some a) (hks : RoundKeyAt s r.toNat ks) :
    execAddRoundKey r s = .next { s with st := some (addRoundKey ks a) } :=
  execAddRoundKey_eq_next.mpr ⟨h, a, ks, ha, hks, rfl⟩

/-- R131: STORE_STATE answers a next state when `st` holds an array; only `out` changes. -/
theorem execStoreState_eq_next {s t : State} :
    execStoreState s = .next t ↔ ∃ a, s.st = some a ∧ t = { s with out := some (.block (stateToBlock a)) } := by
  simp only [execStoreState, withBlock, withSt_eq_next, next_eq_next]

/-- R169, R173: the end of a cipher command answers a next state when `st` holds an array. -/
theorem finishBlock_eq_next {s t : State} :
    finishBlock s = .next t ↔ ∃ a, s.st = some a ∧
      t = { s with st := none, ctr := none, phase := .idle, rsp := some ⟨.ok, some (stateToBlock a)⟩ } := by
  simp only [finishBlock, withBlock, withSt_eq_next, next_eq_next, State.respond]

/-! ### Bytes of the transforms -/

@[simp] theorem byteAt_addRoundKey (ks : Vector Word 4) (a : StateArr) (j c : Fin 4) :
    (addRoundKey ks a).byteAt j c = a.byteAt j c ^^^ wordByte ks[c] j.val := StateArr.byteAt_build _ j c
@[simp] theorem byteAt_subBytes (a : StateArr) (r c : Fin 4) : (subBytes a).byteAt r c = sbox (a.byteAt r c) :=
  StateArr.byteAt_build _ r c
@[simp] theorem byteAt_invSubBytes (a : StateArr) (r c : Fin 4) : (invSubBytes a).byteAt r c = invSbox (a.byteAt r c) :=
  StateArr.byteAt_build _ r c
@[simp] theorem byteAt_shiftRows (a : StateArr) (r c : Fin 4) : (shiftRows a).byteAt r c = a.byteAt r (c + r) :=
  StateArr.byteAt_build _ r c
@[simp] theorem byteAt_invShiftRows (a : StateArr) (r c : Fin 4) : (invShiftRows a).byteAt r c = a.byteAt r (c - r) :=
  StateArr.byteAt_build _ r c
theorem byteAt_mulMatrix (m a : StateArr) (r c : Fin 4) :
    (mulMatrix m a).byteAt r c = gfmul (m.byteAt r 0) (a.byteAt 0 c) ^^^ gfmul (m.byteAt r 1) (a.byteAt 1 c) ^^^
      gfmul (m.byteAt r 2) (a.byteAt 2 c) ^^^ gfmul (m.byteAt r 3) (a.byteAt 3 c) := StateArr.byteAt_build _ r c

end Sys2Proof.Machine
end

