-- ==== Sys2Proof/Laws/Driver.lean ====
section
/-! SUPPORT. What each accept step and each internal step of the cipher driver can do: when it answers a next state, and
which. Then what one step of the machine can do. -/

namespace Sys2Proof.Machine

/-! ### Internal steps (R164 to R173) -/

/-- R168. -/
theorem encRound_eq_next {s t : State} {r : BitVec 6} :
    encRound r s = .next t ↔ r.toNat ≤ 10 ∧ ∃ a ks, s.st = some a ∧ RoundKeyAt s r.toNat ks ∧
      t = { s with st := some (addRoundKey ks (mixColumns (shiftRows (subBytes a)))), ctr := some (r + 1) } := by
  unfold encRound execSubBytes execShiftRows execMixColumns
  cases h : s.st with
  | none => simp [mapSt_of_none h]
  | some a =>
    rw [mapSt_of_some h, andThen_next, mapSt_of_some rfl, andThen_next, mapSt_of_some rfl, andThen_next, andThen_eq_next]
    constructor
    · rintro ⟨u, hu, ht⟩
      obtain ⟨hr, b, ks, hb, hks, rfl⟩ := execAddRoundKey_eq_next.mp hu
      cases hb
      exact ⟨hr, a, ks, rfl, hks, (next_eq_next.mp ht)⟩
    · rintro ⟨hr, b, ks, hb, hks, rfl⟩
      cases hb
      exact ⟨_, execAddRoundKey_of hr rfl hks, rfl⟩

/-- R169. -/
theorem encFinal_eq_next {s t : State} :
    encFinal s = .next t ↔ ∃ a ks, s.st = some a ∧ RoundKeyAt s 10 ks ∧
      t = { s with st := none, ctr := none, phase := .idle,
                   rsp := some ⟨.ok, some (stateToBlock (addRoundKey ks (shiftRows (subBytes a))))⟩ } := by
  unfold encFinal execSubBytes execShiftRows
  cases h : s.st with
  | none => simp [mapSt_of_none h]
  | some a =>
    rw [mapSt_of_some h, andThen_next, mapSt_of_some rfl, andThen_next, andThen_eq_next]
    constructor
    · rintro ⟨u, hu, ht⟩
      obtain ⟨hr, b, ks, hb, hks, rfl⟩ := execAddRoundKey_eq_next.mp hu
      cases hb
      obtain ⟨c, hc, rfl⟩ := finishBlock_eq_next.mp ht
      cases hc
      exact ⟨a, ks, rfl, hks, rfl⟩
    · rintro ⟨b, ks, hb, hks, rfl⟩
      cases hb
      exact ⟨_, execAddRoundKey_of (r := 10) (by decide) rfl hks, finishBlock_eq_next.mpr ⟨_, rfl, rfl⟩⟩

/-- R172. -/
theorem decRound_eq_next {s t : State} {r : BitVec 6} :
    decRound r s = .next t ↔ r.toNat ≤ 10 ∧ ∃ a ks, s.st = some a ∧ RoundKeyAt s r.toNat ks ∧
      t = { s with st := some (invMixColumns (addRoundKey ks (invSubBytes (invShiftRows a)))), ctr := some (r - 1) } := by
  unfold decRound execInvSubBytes execInvShiftRows execInvMixColumns
  cases h : s.st with
  | none => simp [mapSt_of_none h]
  | some a =>
    rw [mapSt_of_some h, andThen_next, mapSt_of_some rfl, andThen_next, andThen_eq_next]
    constructor
    · rintro ⟨u, hu, ht⟩
      obtain ⟨hr, b, ks, hb, hks, rfl⟩ := execAddRoundKey_eq_next.mp hu
      cases hb
      rw [mapSt_of_some rfl, andThen_next] at ht
      exact ⟨hr, a, ks, rfl, hks, (next_eq_next.mp ht)⟩
    · rintro ⟨hr, b, ks, hb, hks, rfl⟩
      cases hb
      exact ⟨_, execAddRoundKey_of hr rfl hks, by rw [mapSt_of_some rfl, andThen_next]⟩

/-- R173. -/
theorem decFinal_eq_next {s t : State} :
    decFinal s = .next t ↔ ∃ a ks, s.st = some a ∧ RoundKeyAt s 0 ks ∧
      t = { s with st := none, ctr := none, phase := .idle,
                   rsp := some ⟨.ok, some (stateToBlock (addRoundKey ks (invSubBytes (invShiftRows a))))⟩ } := by
  unfold decFinal execInvSubBytes execInvShiftRows
  cases h : s.st with
  | none => simp [mapSt_of_none h]
  | some a =>
    rw [mapSt_of_some h, andThen_next, mapSt_of_some rfl, andThen_next, andThen_eq_next]
    constructor
    · rintro ⟨u, hu, ht⟩
      obtain ⟨hr, b, ks, hb, hks, rfl⟩ := execAddRoundKey_eq_next.mp hu
      cases hb
      obtain ⟨c, hc, rfl⟩ := finishBlock_eq_next.mp ht
      cases hc
      exact ⟨a, ks, rfl, hks, rfl⟩
    · rintro ⟨b, ks, hb, hks, rfl⟩
      cases hb
      exact ⟨_, execAddRoundKey_of (r := 0) (by decide) rfl hks, finishBlock_eq_next.mpr ⟨_, rfl, rfl⟩⟩

/-- The word that KEXP_WORD `#i` writes, from the store (R113). -/
def DerivedWord (s : State) (i : Nat) (w : Word) : Prop :=
  ∃ u p, s.W[i - 1]? = some (some u) ∧ s.W[i - 4]? = some (some p) ∧ w = p ^^^ kexpTemp i u

/-- R164. -/
theorem kexpStep_eq_next {s t : State} {i : BitVec 6} :
    kexpStep i s = .next t ↔ 4 ≤ i.toNat ∧ i.toNat ≤ 43 ∧ ∃ w, DerivedWord s i.toNat w ∧
      t = { s.writeW i.toNat w with ctr := some (i + 1) } := by
  unfold kexpStep
  rw [andThen_eq_next]
  constructor
  · rintro ⟨u, hu, ht⟩
    obtain ⟨h1, h2, x, p, hx, hp, rfl⟩ := execKexpWord_eq_next.mp hu
    exact ⟨h1, h2, _, ⟨x, p, hx, hp, rfl⟩, next_eq_next.mp ht⟩
  · rintro ⟨h1, h2, w, ⟨x, p, hx, hp, rfl⟩, rfl⟩
    exact ⟨_, execKexpWord_of h1 h2 hx hp, rfl⟩

/-- R165. -/
theorem kexpFinal_eq_next {s t : State} :
    kexpFinal s = .next t ↔ ∃ w, DerivedWord s 43 w ∧
      t = { s.writeW 43 w with ctr := none, phase := .idle, keyValid := true, rsp := some ⟨.ok, none⟩ } := by
  unfold kexpFinal
  rw [andThen_eq_next]
  constructor
  · rintro ⟨u, hu, ht⟩
    obtain ⟨h1, h2, x, p, hx, hp, rfl⟩ := execKexpWord_eq_next.mp hu
    exact ⟨_, ⟨x, p, hx, hp, rfl⟩, next_eq_next.mp ht⟩
  · rintro ⟨w, ⟨x, p, hx, hp, rfl⟩, rfl⟩
    exact ⟨_, execKexpWord_of (i := 43) (by decide) (by decide) hx hp, rfl⟩

/-- What `ADVANCE` can do at a counter value (R177): one of the six rows of the table. -/
theorem advance_cases {s t : State} {r : BitVec 6} (hr : s.ctr = some r) (h : advance s = .next t) :
    (s.phase = .keyexp ∧ 4 ≤ r.toNat ∧ r.toNat ≤ 42 ∧ kexpStep r s = .next t) ∨
    (s.phase = .keyexp ∧ r.toNat = 43 ∧ kexpFinal s = .next t) ∨
    (s.phase = .enc ∧ 1 ≤ r.toNat ∧ r.toNat ≤ 9 ∧ encRound r s = .next t) ∨
    (s.phase = .enc ∧ r.toNat = 10 ∧ encFinal s = .next t) ∨
    (s.phase = .dec ∧ 1 ≤ r.toNat ∧ r.toNat ≤ 9 ∧ decRound r s = .next t) ∨
    (s.phase = .dec ∧ r.toNat = 0 ∧ decFinal s = .next t) := by
  unfold advance at h
  rw [hr] at h
  simp only [advanceAt] at h
  cases hp : s.phase <;> rw [hp] at h <;> simp only at h
  · cases h
  all_goals
    split at h
    · simp_all
    · split at h
      · simp_all
      · cases h

theorem advance_ctr {s t : State} (h : advance s = .next t) : ∃ r, s.ctr = some r := by
  unfold advance at h
  cases hr : s.ctr with
  | none => rw [hr] at h; cases h
  | some r => exact ⟨r, rfl⟩

/-! ### Accept steps (R161 to R171) -/

/-- R163: what KEYLOAD_START leaves. -/
theorem keyLoadStart_eq (s : State) :
    keyLoadStart s = .next { s with keyValid := false, W := discardWords (loadKeyWords s.din s.W), ctr := some 4,
                                    phase := .keyexp } := rfl

/-- R167. -/
theorem encStart_eq_next {s t : State} :
    encStart s = .next t ↔ ∃ ks, RoundKeyAt s 0 ks ∧
      t = { s with st := some (addRoundKey ks (blockToState s.din)), ctr := some 1, phase := .enc } := by
  unfold encStart execLoadState
  rw [andThen_next, andThen_eq_next]
  constructor
  · rintro ⟨u, hu, ht⟩
    obtain ⟨-, b, ks, hb, hks, rfl⟩ := execAddRoundKey_eq_next.mp hu
    cases hb
    exact ⟨ks, hks, next_eq_next.mp ht⟩
  · rintro ⟨ks, hks, rfl⟩
    exact ⟨_, execAddRoundKey_of (r := 0) (by decide) rfl hks, rfl⟩

/-- R171. -/
theorem decStart_eq_next {s t : State} :
    decStart s = .next t ↔ ∃ ks, RoundKeyAt s 10 ks ∧
      t = { s with st := some (addRoundKey ks (blockToState s.din)), ctr := some 9, phase := .dec } := by
  unfold decStart execLoadState
  rw [andThen_next, andThen_eq_next]
  constructor
  · rintro ⟨u, hu, ht⟩
    obtain ⟨-, b, ks, hb, hks, rfl⟩ := execAddRoundKey_eq_next.mp hu
    cases hb
    exact ⟨ks, hks, next_eq_next.mp ht⟩
  · rintro ⟨ks, hks, rfl⟩
    exact ⟨_, execAddRoundKey_of (r := 10) (by decide) rfl hks, rfl⟩

/-- R161, R26: what NOP does, accepted or not. -/
theorem execNop_eq (s : State) :
    execNop s = .next (if s.phase = .idle then { s with rsp := some ⟨.ok, none⟩ } else s) := by
  unfold execNop accept
  split <;> rfl

/-- R162, R26: what KEY_LOAD does: turned away, an error, or KEYLOAD_START. -/
theorem execKeyLoad_eq (len : BitVec 16) (s : State) :
    execKeyLoad len s =
      if s.phase ≠ .idle then .next s
      else if len ≠ 16 then .next { s with rsp := some ⟨.invalidKeyLength, none⟩ }
      else keyLoadStart { s with rsp := none } := by
  unfold execKeyLoad accept
  by_cases h : s.phase = .idle
  · rw [if_pos h, if_neg (not_not_intro h)]; rfl
  · rw [if_neg h, if_pos h]

/-- R166, R26: what ENCRYPT does: turned away, one of two errors in the order of R206, or ENC_START. -/
theorem execEncrypt_eq (len : BitVec 16) (s : State) :
    execEncrypt len s =
      if s.phase ≠ .idle then .next s
      else if s.keyValid = false then .next { s with rsp := some ⟨.noKey, none⟩ }
      else if len ≠ 16 then .next { s with rsp := some ⟨.invalidBlockLength, none⟩ }
      else encStart { s with rsp := none } := by
  unfold execEncrypt accept
  by_cases h : s.phase = .idle
  · rw [if_pos h, if_neg (not_not_intro h)]; rfl
  · rw [if_neg h, if_pos h]

/-- R170, R26: what DECRYPT does: turned away, one of two errors in the order of R206, or DEC_START. -/
theorem execDecrypt_eq (len : BitVec 16) (s : State) :
    execDecrypt len s =
      if s.phase ≠ .idle then .next s
      else if s.keyValid = false then .next { s with rsp := some ⟨.noKey, none⟩ }
      else if len ≠ 16 then .next { s with rsp := some ⟨.invalidBlockLength, none⟩ }
      else decStart { s with rsp := none } := by
  unfold execDecrypt accept
  by_cases h : s.phase = .idle
  · rw [if_pos h, if_neg (not_not_intro h)]; rfl
  · rw [if_neg h, if_pos h]

/-- A round key of a state is one of every state with the same store. -/
theorem RoundKeyAt.of_W {s t : State} {r : Nat} {ks : Vector Word 4} (h : RoundKeyAt s r ks) (e : t.W = s.W) :
    RoundKeyAt t r ks := fun c => by rw [e]; exact h c

/-! ### The decoders -/

/-- What a command word can decode to (R83). -/
theorem decodeCmd_cases {cw : BitVec 32} {i : Instr} (h : decodeCmd cw = .ok i) :
    i = .nop ∨ i = .keyLoad (cmdLen cw) ∨ i = .encrypt (cmdLen cw) ∨ i = .decrypt (cmdLen cw) := by
  unfold decodeCmd at h
  split at h
  · cases h
  · split at h <;> cases h <;> simp

/-! ### One instruction -/

/-- What a command can do in IDLE: answer at once, and change nothing but `rsp`; or start one of the three sequences. -/
theorem exec_command_cases {cw : BitVec 32} {i : Instr} {s t : State} (hp : s.phase = .idle) (hd : decodeCmd cw = .ok i)
    (h : exec i s = .next t) :
    (∃ e, t = { s with rsp := some ⟨e, none⟩ }) ∨
    (i = .keyLoad 16 ∧ keyLoadStart { s with rsp := none } = .next t) ∨
    (i = .encrypt 16 ∧ s.keyValid = true ∧ encStart { s with rsp := none } = .next t) ∨
    (i = .decrypt 16 ∧ s.keyValid = true ∧ decStart { s with rsp := none } = .next t) := by
  rcases decodeCmd_cases hd with rfl | rfl | rfl | rfl <;> simp only [exec] at h
  · rw [execNop_eq, if_pos hp, next_eq_next] at h
    exact .inl ⟨_, h⟩
  · rw [execKeyLoad_eq, if_neg (not_not_intro hp)] at h
    split at h
    · exact .inl ⟨_, next_eq_next.mp h⟩
    · rename_i hl
      exact .inr (.inl ⟨by rw [not_not.mp hl], h⟩)
  · rw [execEncrypt_eq, if_neg (not_not_intro hp)] at h
    repeat' split at h
    · exact .inl ⟨_, next_eq_next.mp h⟩
    · exact .inl ⟨_, next_eq_next.mp h⟩
    · rename_i hk hl
      exact .inr (.inr (.inl ⟨by rw [not_not.mp hl], by simpa using hk, h⟩))
  · rw [execDecrypt_eq, if_neg (not_not_intro hp)] at h
    repeat' split at h
    · exact .inl ⟨_, next_eq_next.mp h⟩
    · exact .inl ⟨_, next_eq_next.mp h⟩
    · rename_i hk hl
      exact .inr (.inr (.inr ⟨by rw [not_not.mp hl], by simpa using hk, h⟩))

/-- No instruction touches what the host will drive. -/
theorem exec_host {i : Instr} {s t : State} (h : exec i s = .next t) : t.host = s.host := by
  cases i <;> simp only [exec] at h
  case nop => rw [execNop_eq, next_eq_next] at h; subst h; split <;> rfl
  case keyLoad =>
    rw [execKeyLoad_eq, keyLoadStart_eq] at h
    repeat' split at h
    all_goals
      rw [next_eq_next] at h
      rw [h]
  case encrypt =>
    rw [execEncrypt_eq] at h
    repeat' split at h
    all_goals first | (cases h; rfl) | (obtain ⟨_, _, rfl⟩ := encStart_eq_next.mp h; rfl)
  case decrypt =>
    rw [execDecrypt_eq] at h
    repeat' split at h
    all_goals first | (cases h; rfl) | (obtain ⟨_, _, rfl⟩ := decStart_eq_next.mp h; rfl)
  case kexpWord => obtain ⟨_, _, _, _, _, _, rfl⟩ := execKexpWord_eq_next.mp h; rfl
  case addRoundKey => obtain ⟨_, _, _, _, _, rfl⟩ := execAddRoundKey_eq_next.mp h; rfl
  case storeState => obtain ⟨_, _, rfl⟩ := execStoreState_eq_next.mp h; rfl
  case subBytes => obtain ⟨_, _, rfl⟩ := mapSt_eq_next.mp h; rfl
  case invSubBytes => obtain ⟨_, _, rfl⟩ := mapSt_eq_next.mp h; rfl
  case shiftRows => obtain ⟨_, _, rfl⟩ := mapSt_eq_next.mp h; rfl
  case invShiftRows => obtain ⟨_, _, rfl⟩ := mapSt_eq_next.mp h; rfl
  case mixColumns => obtain ⟨_, _, rfl⟩ := mapSt_eq_next.mp h; rfl
  case invMixColumns => obtain ⟨_, _, rfl⟩ := mapSt_eq_next.mp h; rfl
  all_goals (cases h; rfl)

/-! ### One step of the machine -/

/-- Which transition comes next when no micro-operation waits in `uopSlot` (R160). -/
theorem select_of_no_uop {s : State} (h : s.uopSlot = none) :
    s.select = if s.ports.rst then .reset else if s.phase ≠ .idle then .advance
      else if s.ports.cmdValid then .accept s.ports.cmdWord else .wait := by
  unfold State.select
  rw [h]

/-- What one step can do when no micro-operation waits in `uopSlot` (R160): a reset, an internal step, the acceptance
of a command that decodes or of one that does not, or nothing. -/
theorem step_cases {s t : State} (hu : s.uopSlot = none) (h : step s = .next t) :
    (s.ports.rst = true ∧ t = resetStep s) ∨
    (s.ports.rst = false ∧ s.phase ≠ .idle ∧ ∃ u, advance s = .next u ∧ t = u.waitHost) ∨
    (s.ports.rst = false ∧ s.phase = .idle ∧ s.ports.cmdValid = true ∧ ∃ i u, decodeCmd s.ports.cmdWord = .ok i ∧
      exec i s = .next u ∧ t = u.popHost) ∨
    (s.ports.rst = false ∧ s.phase = .idle ∧ s.ports.cmdValid = true ∧ (∃ e, decodeCmd s.ports.cmdWord = .error e) ∧
      t = { s with rsp := some ⟨.illegalCommand, none⟩ }.popHost) ∨
    (s.ports.rst = false ∧ s.phase = .idle ∧ s.ports.cmdValid = false ∧ t = s.popHost) := by
  unfold step at h
  rw [select_of_no_uop hu] at h
  by_cases hr : s.ports.rst = true
  · simp only [hr, if_true, next_eq_next] at h
    exact .inl ⟨hr, h⟩
  · rw [if_neg hr] at h
    rw [Bool.not_eq_true] at hr
    by_cases hp : s.phase = .idle
    · rw [if_neg (by simp [hp])] at h
      cases hc : s.ports.cmdValid with
      | false =>
        simp only [hc, Bool.false_eq_true, if_false, next_eq_next] at h
        exact .inr (.inr (.inr (.inr ⟨hr, hp, rfl, h⟩)))
      | true =>
        simp only [hc, if_true, acceptCommand, decode] at h
        obtain ⟨u, hu', rfl⟩ := andPopHost_eq_next.mp h
        cases hd : decodeCmd s.ports.cmdWord with
        | ok i =>
          rw [hd] at hu'
          exact .inr (.inr (.inl ⟨hr, hp, rfl, i, u, rfl, hu', rfl⟩))
        | error e =>
          rw [hd] at hu'
          simp only [illegalCommand, accept_idle hp, raise_eq, next_eq_next] at hu'
          exact .inr (.inr (.inr (.inl ⟨hr, hp, rfl, ⟨e, rfl⟩, by rw [hu']; rfl⟩)))
    · simp only [hp, ne_eq, not_false_eq_true, if_true] at h
      obtain ⟨u, hu', rfl⟩ := andWaitHost_eq_next.mp h
      exact .inr (.inl ⟨hr, hp, u, hu', rfl⟩)

/-- A step of a command in flight (R160). -/
theorem step_busy {s : State} (hr : s.ports.rst = false) (hu : s.uopSlot = none) (hp : s.phase ≠ .idle) :
    step s = andWaitHost (advance s) := by
  unfold step
  rw [select_of_no_uop hu]
  simp [hr, hp]

/-- A step on an offered word (R160). -/
theorem step_offered {s : State} (hr : s.ports.rst = false) (hu : s.uopSlot = none) (hp : s.phase = .idle)
    (hv : s.ports.cmdValid = true) : step s = andPopHost (acceptCommand s.ports.cmdWord s) := by
  unfold step
  rw [select_of_no_uop hu]
  simp [hr, hp, hv]

/-- A step while `rst = 1` (R230). -/
theorem step_reset {s : State} (hr : s.ports.rst = true) : step s = .next (resetStep s) := by
  unfold step State.select
  simp [hr]

end Sys2Proof.Machine
end

