-- ==== Sys2Proof/Laws/PerInstr.lean ====
section
/-! SUPPORT. Per instruction: the code word of an instruction is one that its own row of spec/opcode_table.json takes, and
no other row does. -/

namespace Sys2Proof.Laws.EncodeMatchesRow

open Sys2Proof

/-- The row of the mnemonic `m`, and no other, takes the code word `c`. -/
def TakenBy (m : String) (c : Code) : Prop :=
  (opcodeTable.filter fun row => row.takes c).map TableRow.mnemonic = [m]

/-- A code word of the instruction, if it has one (R87), is taken by the row of its mnemonic and by no other row. -/
def Statement (i : Instr) : Prop := ∀ c, encode i = some c → TakenBy i.mnemonic c

/-- The fixed bits of a command word made of its fields do not depend on `LEN`. -/
theorem cmd_masked (len : BitVec 16) (op : BitVec 4) :
    (len ++ (0 : BitVec 12) ++ op) &&& 0x0000FFFF#32 = ((0 : BitVec 16) ++ (0 : BitVec 12) ++ op) &&& 0x0000FFFF#32 := by
  apply BitVec.eq_of_getLsbD_eq
  intro i hi
  simp only [BitVec.getLsbD_and, BitVec.getLsbD_append]
  interval_cases i <;> simp

/-- Which rows take a command word does not depend on `LEN`. -/
theorem takes_cmdCode (row : TableRow) (h : row ∈ opcodeTable) (len : BitVec 16) (op : BitVec 4) :
    row.takes (cmdCode len op) = row.takes (cmdCode 0 op) := by
  simp only [opcodeTable, List.cons_append, List.nil_append, List.mem_cons, List.not_mem_nil, or_false] at h
  rcases h with rfl | rfl | rfl | rfl | rfl | rfl | rfl | rfl | rfl | rfl | rfl | rfl | rfl | rfl | rfl <;>
    first
      | exact congrArg (· == _) (cmd_masked len op)
      | rfl

theorem takenBy_cmdCode (m : String) (len : BitVec 16) (op : BitVec 4) (h : TakenBy m (cmdCode 0 op)) :
    TakenBy m (cmdCode len op) := by
  unfold TakenBy at h ⊢
  rw [← h]
  exact congrArg _ (List.filter_congr fun row hr => takes_cmdCode row hr len op)

theorem nop : Statement .nop := by intro c h; cases h; unfold TakenBy; decide
theorem keyLoad (len : BitVec 16) : Statement (.keyLoad len) := by
  intro c h; cases h; exact takenBy_cmdCode "KEY_LOAD" len 0x1 (by unfold TakenBy; decide)
theorem encrypt (len : BitVec 16) : Statement (.encrypt len) := by
  intro c h; cases h; exact takenBy_cmdCode "ENCRYPT" len 0x2 (by unfold TakenBy; decide)
theorem decrypt (len : BitVec 16) : Statement (.decrypt len) := by
  intro c h; cases h; exact takenBy_cmdCode "DECRYPT" len 0x3 (by unfold TakenBy; decide)
theorem loadKey : Statement .loadKey := by intro c h; cases h; unfold TakenBy; decide
theorem kexpWord (i : BitVec 6) : Statement (.kexpWord i) := by
  intro c h; cases h
  have e : ∀ i : BitVec 6, TakenBy "KEXP_WORD" (uopCode i 0x1) := by unfold TakenBy; decide +kernel
  exact e i
theorem loadState : Statement .loadState := by intro c h; cases h; unfold TakenBy; decide
theorem addRoundKey (i : BitVec 6) : Statement (.addRoundKey i) := by
  intro c h; cases h
  have e : ∀ i : BitVec 6, TakenBy "ADDROUNDKEY" (uopCode i 0x3) := by unfold TakenBy; decide +kernel
  exact e i
theorem subBytes : Statement .subBytes := by intro c h; cases h; unfold TakenBy; decide
theorem invSubBytes : Statement .invSubBytes := by intro c h; cases h; unfold TakenBy; decide
theorem shiftRows : Statement .shiftRows := by intro c h; cases h; unfold TakenBy; decide
theorem invShiftRows : Statement .invShiftRows := by intro c h; cases h; unfold TakenBy; decide
theorem mixColumns : Statement .mixColumns := by intro c h; cases h; unfold TakenBy; decide
theorem invMixColumns : Statement .invMixColumns := by intro c h; cases h; unfold TakenBy; decide
theorem storeState : Statement .storeState := by intro c h; cases h; unfold TakenBy; decide
theorem gfMul (a b : Byte) : Statement (.gfMul a b) := by intro c h; cases h
theorem rotWord (w : Word) : Statement (.rotWord w) := by intro c h; cases h
theorem subWord (w : Word) : Statement (.subWord w) := by intro c h; cases h

/-- Two rows of one format have different fixed values, so no word is taken by two rows. -/
theorem rows_disjoint : opcodeTable.Pairwise fun a b => a.takes b.value = false ∧ (a.mask = b.mask → a.value ≠ b.value) := by
  decide

end Sys2Proof.Laws.EncodeMatchesRow
end

