-- ==== Sys2Proof/Laws/Runs.lean ====
section
/-! SUPPORT. Small facts for runs: unfolding a run by one step, reading a store that holds enough words, and what the
host's drives do to the invariants. -/

namespace Sys2Proof.Machine

/-! ### Runs -/

theorem runSteps_zero (s : State) : runSteps 0 s = .next s := rfl

theorem core_run_next (M : Host.Core) (k : Nat) {s t : M.State} (h : M.step s = .next t) : M.run (k + 1) s = M.run k t := by
  rw [Host.Core.run, h]

theorem core_run_fault (M : Host.Core) (k : Nat) {s : M.State} {f : M.Fault} (h : M.step s = .fault f) :
    M.run (k + 1) s = .fault f := by
  rw [Host.Core.run, h]

theorem core_run_refused (M : Host.Core) (k : Nat) {s : M.State} {r : M.Refusal} (h : M.step s = .refused r) :
    M.run (k + 1) s = .refused r := by
  rw [Host.Core.run, h]

/-- A run is one step and then the rest of it. -/
theorem runSteps_succ (k : Nat) (s : State) : runSteps (k + 1) s = andThen (step s) (runSteps k) := by
  cases h : step s with
  | next t => exact core_run_next Sys2Proof.core k h
  | fault f => exact core_run_fault Sys2Proof.core k h
  | refused r => exact core_run_refused Sys2Proof.core k h

/-- A run is its first `k` steps and then the other `l`. -/
theorem runSteps_add (k l : Nat) (s : State) : runSteps (k + l) s = andThen (runSteps k s) (runSteps l) := by
  induction k generalizing s with
  | zero => rw [Nat.zero_add]; rfl
  | succ k ih =>
    rw [show k + 1 + l = (k + l) + 1 by omega, runSteps_succ, runSteps_succ, andThen_assoc]
    congr 1
    funext u
    exact ih u

/-! ### Counters -/

theorem ctr_succ_toNat {r : BitVec 6} (h : r.toNat ≤ 62) : (r + 1).toNat = r.toNat + 1 := by
  rw [BitVec.toNat_add]; simp; omega

theorem ctr_pred_toNat {r : BitVec 6} (h : 1 ≤ r.toNat) : (r - 1).toNat = r.toNat - 1 := by
  rw [BitVec.toNat_sub]; simp; omega

/-! ### Stores that hold enough words -/

theorem isSome_iff_getElem? (W : KeyStore) (i : Fin 44) : (W[i]).isSome = true ↔ ∃ w, W[i.val]? = some (some w) := by
  rw [Option.isSome_iff_exists]
  exact exists_congr fun w => getElem_eq_iff_getElem? W i (some w)

theorem isSome_setW {W : KeyStore} {i : Nat} {w : Word} (k : Fin 44) :
    ((W.setIfInBounds i (some w))[k]).isSome = true ↔ k.val = i ∨ (W[k]).isSome = true := by
  rw [isSome_iff_getElem?, isSome_iff_getElem?]
  simp only [getElem?_setW]
  by_cases h : i = k.val
  · simp [h]
  · simp [h, Ne.symm h]

/-- Words `0..n-1` being there, so is round key `r` with `4r + 3 < n`. -/
theorem RoundKeyAt.exists_of {s : State} {n r : Nat} (h : ∀ k : Fin 44, k.val < n → (s.W[k]).isSome = true)
    (hr : 4 * r + 3 < n) (hn : n ≤ 44) : ∃ ks, RoundKeyAt s r ks := by
  have g : ∀ c : Fin 4, ∃ w, s.W[4 * r + c.val]? = some (some w) := fun c =>
    (isSome_iff_getElem? s.W ⟨4 * r + c.val, by omega⟩).mp (h _ (by simp; omega))
  obtain ⟨a, ha⟩ := g 0
  obtain ⟨b, hb⟩ := g 1
  obtain ⟨c, hc⟩ := g 2
  obtain ⟨d, hd⟩ := g 3
  refine ⟨#v[a, b, c, d], fun k => ?_⟩
  match k with
  | 0 => exact ha
  | 1 => exact hb
  | 2 => exact hc
  | 3 => exact hd

/-- Words `0..i-1` being there, KEXP_WORD `#i` has a word to write. -/
theorem DerivedWord.exists_of {s : State} {i : Nat} (h : ∀ k : Fin 44, k.val < i → (s.W[k]).isSome = true) (h1 : 4 ≤ i)
    (h2 : i ≤ 43) : ∃ w, DerivedWord s i w := by
  obtain ⟨u, hu⟩ := (isSome_iff_getElem? s.W ⟨i - 1, by omega⟩).mp (h _ (by simp; omega))
  obtain ⟨p, hp⟩ := (isSome_iff_getElem? s.W ⟨i - 4, by omega⟩).mp (h _ (by simp; omega))
  exact ⟨_, u, p, hu, hp, rfl⟩

/-! ### Internal steps, further -/

theorem advance_at {s : State} {r : BitVec 6} (hr : s.ctr = some r) : advance s = advanceAt s.phase r s := by
  unfold advance
  rw [hr]

/-- No internal step touches what the host will drive. -/
theorem advance_host {s t : State} (h : advance s = .next t) : t.host = s.host := by
  obtain ⟨r, hr⟩ := advance_ctr h
  rcases advance_cases hr h with ⟨_, _, _, e⟩ | ⟨_, _, e⟩ | ⟨_, _, _, e⟩ | ⟨_, _, e⟩ | ⟨_, _, _, e⟩ | ⟨_, _, e⟩
  · obtain ⟨_, _, _, _, rfl⟩ := kexpStep_eq_next.mp e; rfl
  · obtain ⟨_, _, rfl⟩ := kexpFinal_eq_next.mp e; rfl
  · obtain ⟨_, _, _, _, _, rfl⟩ := encRound_eq_next.mp e; rfl
  · obtain ⟨_, _, _, _, rfl⟩ := encFinal_eq_next.mp e; rfl
  · obtain ⟨_, _, _, _, _, rfl⟩ := decRound_eq_next.mp e; rfl
  · obtain ⟨_, _, _, _, rfl⟩ := decFinal_eq_next.mp e; rfl

/-! ### The host's drives and the invariants -/

theorem NoReset.of_waited {s t : State} (h : NoReset s) (e : t.host = waitedHost s.host) : NoReset t := by
  intro d hd
  rw [e] at hd
  exact h d (mem_of_mem_waitedHost hd)

theorem NoReset.of_tail {s t : State} (h : NoReset s) (e : t.host = s.host.tail) : NoReset t := by
  intro d hd
  rw [e] at hd
  exact h d (List.mem_of_mem_tail hd)

theorem Inv.with_host {s : State} (hi : Inv s) (h : List HostDrive) : Inv { s with host := h } := by
  obtain ⟨a, b, b', c, d, e, f, g, i, j, k, l⟩ := hi
  exact ⟨a, b, b', c, d, e, f, g, i, j, k, l⟩

theorem Inv.waitHost {s : State} (hi : Inv s) : Inv s.waitHost := by
  rw [State.waitHost_eq]
  exact hi.with_host _

theorem Inv.popHost {s : State} (hi : Inv s) : Inv s.popHost := hi.with_host _

theorem Inv.with_rsp {s : State} (hi : Inv s) (hp : s.phase = .idle) (r : Option Response) : Inv { s with rsp := r } := by
  obtain ⟨a, b, b', c, d, e, _, g, i, j, k, l⟩ := hi
  exact ⟨a, b, b', c, d, e, fun h => absurd hp h, g, i, j, k, l⟩

theorem Inv.ctr_of_busy {s : State} (hi : Inv s) (hp : s.phase ≠ .idle) : ∃ r, s.ctr = some r := by
  cases h : s.ctr with
  | none => exact absurd (hi.idle_iff.mpr h) hp
  | some r => exact ⟨r, rfl⟩

theorem Inv.busy_of_ctr {s : State} (hi : Inv s) {r : BitVec 6} (hr : s.ctr = some r) : s.phase ≠ .idle := by
  intro h
  have := hi.idle_iff.mp h
  rw [hr] at this
  cases this

end Sys2Proof.Machine
end

