-- ==== Sys2Proof/Tests/Slice0.lean ====
section
/-! SUPPORT. The model's own tests: ill-formed terms that are refused, words written out from the encoding tables, one step
on small states with the expected values of 95_test_vectors.md, and for each obligation with hypotheses a witness
that meets them. -/

namespace Sys2Proof.Tests

open Sys2Proof Sys2Proof.Machine Sys2Proof.Spec

set_option Elab.async false

/-! ### Small states -/

/-- 95_test_vectors.md V8: the schedule of the key `000102...0f`. -/
def v8 : List Word :=
  [0x00010203, 0x04050607, 0x08090a0b, 0x0c0d0e0f] ++ [0xd6aa74fd, 0xd2af72fa, 0xdaa678f1, 0xd6ab76fe] ++
  [0xb692cf0b, 0x643dbdf1, 0xbe9bc500, 0x6830b3fe] ++ [0xb6ff744e, 0xd2c2c9bf, 0x6c590cbf, 0x0469bf41] ++
  [0x47f7f7bc, 0x95353e03, 0xf96c32bc, 0xfd058dfd] ++ [0x3caaa3e8, 0xa99f9deb, 0x50f3af57, 0xadf622aa] ++
  [0x5e390f7d, 0xf7a69296, 0xa7553dc1, 0x0aa31f6b] ++ [0x14f9701a, 0xe35fe28c, 0x440adf4d, 0x4ea9c026] ++
  [0x47438735, 0xa41c65b9, 0xe016baf4, 0xaebf7ad2] ++ [0x549932d1, 0xf0855768, 0x1093ed9c, 0xbe2c974e] ++
  [0x13111d7f, 0xe3944a17, 0xf307a78b, 0x4d2b30c5]

/-- The key of V1. -/
def key1 : Block := 0x000102030405060708090a0b0c0d0e0f

/-- The plaintext of V1. -/
def plain1 : Block := 0x00112233445566778899aabbccddeeff

/-- V8 as a vector. -/
def sched : Vector Word 44 := Vector.ofFn fun i => v8.getD i.val 0

/-- The first `n` words of V8, the rest `none`. -/
def firstWords (n : Nat) : KeyStore := Vector.ofFn fun i => if i.val < n then some (v8.getD i.val 0) else none

/-- IDLE, the key of V1 loaded. -/
def keyed : State := { State.reset with W := firstWords 44, keyValid := true }

/-- KEYEXP at `ctr = i`. -/
def atKexp (i : BitVec 6) : State := { State.reset with W := firstWords i.toNat, ctr := some i, phase := .keyexp }

/-- ENC at `ctr = r`, with an arbitrary working state. -/
def atEnc (r : BitVec 6) (b : Block) : State := { keyed with ctr := some r, phase := .enc, st := some (blockToState b) }

/-- DEC at `ctr = r`, with an arbitrary working state. -/
def atDec (r : BitVec 6) (b : Block) : State := { keyed with ctr := some r, phase := .dec, st := some (blockToState b) }

/-- A state with the block `b` loaded. -/
def loaded (b : Block) : State := { keyed with st := some (blockToState b) }

/-- The host offers `cw` with the operand `d`. -/
def offering (cw : BitVec 32) (d : Block) (s : State) : State := { s with host := [⟨false, true, cw, d, true⟩] }

/-- The host asserts reset. -/
def resetting (s : State) : State := { s with host := [⟨true, false, 0, 0, false⟩] }

/-- The block that STORE_STATE would produce after an outcome. -/
def blockAfter (o : Result) : Option Block := (nextOf o).bind fun t => t.st.map stateToBlock

/-- The response after an outcome. -/
def rspAfter (o : Result) : Option Response := (nextOf o).bind State.rsp

/-- The outcome is a refusal of a word that spells nothing. -/
def spellsNothing (o : Result) : Bool :=
  match o with
  | .next _ => false
  | .fault _ => false
  | .refused r => decide (r = .spellsNoMicroOperation)

/-- The fault of an outcome, if it is one. -/
def faultOf (o : Result) : Option Fault :=
  match o with
  | .next _ => none
  | .fault f => some f
  | .refused _ => none

/-! ### Well-formedness: each check refuses an ill-formed term (R85) -/

theorem test_wf_kexpWord_low : (Instr.kexpWord 3).wf = false ∧ (Instr.kexpWord 4).wf = true := by decide
theorem test_wf_kexpWord_high : (Instr.kexpWord 44).wf = false ∧ (Instr.kexpWord 43).wf = true := by decide
theorem test_wf_addRoundKey : (Instr.addRoundKey 11).wf = false ∧ (Instr.addRoundKey 10).wf = true := by decide

/-! ### Decoding of words written out from the encoding tables (R75, R76, R84, R85, R92, P5) -/

theorem test_decode_nop : decode (.cmd 0b00000000000000000000000000000000) = .ok .nop := by decide
theorem test_decode_keyLoad : decode (.cmd 0b00000000000100000000000000000001) = .ok (.keyLoad 16) := by decide
theorem test_decode_encrypt : decode (.cmd 0b00000000000011110000000000000010) = .ok (.encrypt 15) := by decide
theorem test_decode_decrypt : decode (.cmd 0b00000000000100010000000000000011) = .ok (.decrypt 17) := by decide
theorem test_decode_loadKey : decode (.uop 0b000000000000) = .ok .loadKey := by decide
theorem test_decode_kexpWord : decode (.uop 0b001010110001) = .ok (.kexpWord 43) := by decide
theorem test_decode_loadState : decode (.uop 0b000000000010) = .ok .loadState := by decide
theorem test_decode_addRoundKey : decode (.uop 0b000010100011) = .ok (.addRoundKey 10) := by decide
theorem test_decode_subBytes : decode (.uop 0b000000000100) = .ok .subBytes := by decide
theorem test_decode_invSubBytes : decode (.uop 0b000000000101) = .ok .invSubBytes := by decide
theorem test_decode_shiftRows : decode (.uop 0b000000000110) = .ok .shiftRows := by decide
theorem test_decode_invShiftRows : decode (.uop 0b000000000111) = .ok .invShiftRows := by decide
theorem test_decode_mixColumns : decode (.uop 0b000000001000) = .ok .mixColumns := by decide
theorem test_decode_invMixColumns : decode (.uop 0b000000001001) = .ok .invMixColumns := by decide
theorem test_decode_storeState : decode (.uop 0b000000001010) = .ok .storeState := by decide
theorem test_decode_table_words : decodeTableWord 32 0x00100001 = some (.keyLoad 16) ∧
    decodeTableWord 16 0x0A3 = some (.addRoundKey 10) ∧ decodeTableWord 16 0x400 = none ∧
    decodeTableWord 16 0x1000 = none ∧ decodeTableWord 32 0x00100004 = none ∧ decodeTableWord 0 0 = none := by decide
theorem test_function_has_no_code : encode (.gfMul 1 2) = none ∧ encode (.rotWord 1) = none ∧ encode (.subWord 1) = none := by
  decide

/-! ### The functions (V5, V6) -/

theorem test_gfMul : nextOf (exec (.gfMul 0x57 0x83) State.reset) = some { State.reset with out := some (.byte 0xc1) } := by
  decide +kernel
theorem test_gfMul_corners : gfmul 0x02 0x80 = 0x1b ∧ gfmul 0xff 0xff = 0x13 ∧ gfmul 0x80 0x80 = 0x9a ∧
    gfmul 0x0d 0xd4 = 0x53 := by decide +kernel
theorem test_rotWord : nextOf (exec (.rotWord 0x09cf4f3c) State.reset) =
    some { State.reset with out := some (.word 0xcf4f3c09) } := by decide +kernel
theorem test_subWord : nextOf (exec (.subWord 0xcf4f3c09) State.reset) =
    some { State.reset with out := some (.word 0x8a84eb01) } := by decide +kernel

/-! ### Key expansion (V7, V8) -/

theorem test_loadKey : (nextOf (exec .loadKey { keyed with host := [⟨false, false, 0, key1, false⟩] })).map
    (fun t => (t.W.toList.take 5)) = some ((v8.take 5).map some) := by decide +kernel
theorem test_kexpWord_rcon : (nextOf (exec (.kexpWord 4) (atKexp 4))).map (fun t => t.W[4]) = some (some 0xd6aa74fd) := by
  decide +kernel
theorem test_kexpWord_last : (nextOf (exec (.kexpWord 43) (atKexp 43))).map (fun t => t.W[43]) = some (some 0x4d2b30c5) := by
  decide +kernel
theorem test_keyExpand : keyExpand key1 = v8 := by decide +kernel

/-! ### State transforms (V9, V3) -/

theorem test_loadState : blockAfter (exec .loadState { State.reset with host := [⟨false, false, 0, plain1, false⟩] }) =
    some plain1 := by decide +kernel
theorem test_loadState_columns : (blockToState key1).byteAt 1 2 = 0x09 ∧ (blockToState key1).byteAt 3 0 = 0x03 := by
  decide +kernel
theorem test_storeState : (nextOf (exec .storeState (loaded key1))).bind State.out = some (.block key1) := by decide +kernel
theorem test_addRoundKey_0 : blockAfter (exec (.addRoundKey 0) (loaded plain1)) =
    some 0x00102030405060708090a0b0c0d0e0f0 := by decide +kernel
theorem test_addRoundKey_10 : blockAfter (exec (.addRoundKey 10) (loaded 0)) =
    some 0x13111d7fe3944a17f307a78b4d2b30c5 := by decide +kernel
theorem test_subBytes : blockAfter (exec .subBytes (loaded key1)) = some 0x637c777bf26b6fc53001672bfed7ab76 := by
  decide +kernel
theorem test_invSubBytes : blockAfter (exec .invSubBytes (loaded key1)) = some 0x52096ad53036a538bf40a39e81f3d7fb := by
  decide +kernel
theorem test_shiftRows : blockAfter (exec .shiftRows (loaded key1)) = some 0x00050a0f04090e03080d02070c01060b := by
  decide +kernel
theorem test_invShiftRows : blockAfter (exec .invShiftRows (loaded key1)) = some 0x000d0a0704010e0b0805020f0c090603 := by
  decide +kernel
theorem test_mixColumns : blockAfter (exec .mixColumns (loaded 0xd4bf5d30e0b452aeb84111f11e2798e5)) =
    some 0x046681e5e0cb199a48f8d37a2806264c := by decide +kernel
theorem test_invMixColumns : blockAfter (exec .invMixColumns (loaded 0xdb135345f20a225cd4d4d4d52d26314c)) =
    some 0x32a41d55aec36982ddd9dfdaa05050d6 := by decide +kernel

/-! ### Commands and steps (V10, V11, V3, V1) -/

theorem test_nop : rspAfter (step (offering 0x12340000 7 keyed)) = some ⟨.ok, none⟩ := by decide +kernel
theorem test_keyLoad_starts : nextOf (step (offering 0x00100001 key1 keyed)) =
    some { State.reset with W := firstWords 4, ctr := some 4, phase := .keyexp } := by decide +kernel
theorem test_keyLoad_bad_length : rspAfter (step (offering 0x000F0001 key1 keyed)) = some ⟨.invalidKeyLength, none⟩ := by
  decide +kernel
theorem test_encrypt_starts : blockAfter (step (offering 0x00100002 plain1 keyed)) =
    some 0x00102030405060708090a0b0c0d0e0f0 := by decide +kernel
theorem test_encrypt_errors : rspAfter (step (offering 0x000F0002 plain1 State.reset)) = some ⟨.noKey, none⟩ ∧
    rspAfter (step (offering 0x00110002 plain1 keyed)) = some ⟨.invalidBlockLength, none⟩ := by decide +kernel
theorem test_decrypt_starts : blockAfter (step (offering 0x00100003 0x69c4e0d86a7b0430d8cdb78070b4c55a keyed)) =
    some 0x7ad5fda789ef4e272bca100b3d9ff59f := by decide +kernel
theorem test_decrypt_errors : rspAfter (step (offering 0x00100003 plain1 State.reset)) = some ⟨.noKey, none⟩ ∧
    rspAfter (step (offering 0x000F0003 plain1 keyed)) = some ⟨.invalidBlockLength, none⟩ := by decide +kernel
theorem test_illegal : rspAfter (step (offering 0x00100011 0 keyed)) = some ⟨.illegalCommand, none⟩ ∧
    rspAfter (step (offering 0x0010000F 0 keyed)) = some ⟨.illegalCommand, none⟩ ∧
    rspAfter (step (offering 0xFFFF0010 0 State.reset)) = some ⟨.illegalCommand, none⟩ := by decide +kernel
theorem test_enc_round : blockAfter (step (atEnc 1 0x00102030405060708090a0b0c0d0e0f0)) =
    some 0x89d810e8855ace682d1843d8cb128fe4 := by decide +kernel
theorem test_enc_final : rspAfter (step (atEnc 10 0xbd6e7c3df2b5779e0b61216e8b10b689)) =
    some ⟨.ok, some 0x69c4e0d86a7b0430d8cdb78070b4c55a⟩ := by decide +kernel
theorem test_dec_round : blockAfter (step (atDec 9 0x7ad5fda789ef4e272bca100b3d9ff59f)) =
    some 0x54d990a16ba09ab596bbf40ea111702f := by decide +kernel
theorem test_dec_final : rspAfter (step (atDec 0 0x6353e08c0960e104cd70b751bacad0e7)) = some ⟨.ok, some plain1⟩ := by
  decide +kernel
theorem test_kexp_final : (nextOf (step (atKexp 43))).map (fun t => (t.phase, t.keyValid, t.rsp, t.W)) =
    some (.idle, true, some ⟨.ok, none⟩, firstWords 44) := by decide +kernel
theorem test_reset : nextOf (step (resetting (atEnc 5 plain1))) = some State.reset := by decide +kernel
theorem test_known_answer : encBlock v8 plain1 = 0x69c4e0d86a7b0430d8cdb78070b4c55a ∧
    decBlock v8 0x69c4e0d86a7b0430d8cdb78070b4c55a = plain1 := by decide +kernel

/-! ### Witnesses: concrete states and operands that meet the hypotheses of each obligation -/

theorem offered_offering {cw : BitVec 32} {d : Block} {s : State} (hu : s.uopSlot = none) (hp : s.phase = .idle) :
    Offered (offering cw d s) cw := ⟨⟨rfl, hu⟩, hp, rfl, rfl⟩

theorem running_quiet {s : State} (hh : s.host = []) (hu : s.uopSlot = none) : Running s := by
  refine ⟨?_, hu⟩
  unfold State.ports
  rw [hh]
  rfl

theorem noReset_quiet {s : State} (hh : s.host = []) : NoReset s := by
  intro d hd
  rw [hh] at hd
  cases hd

theorem all_firstWords : ∀ k : Fin 44, ((firstWords 44)[k]).isSome = true := by decide +kernel

theorem inv_keyed : Inv keyed := by
  refine ⟨by decide, fun _ => rfl, fun _ => rfl, by decide, fun _ => all_firstWords, fun h => ?_, fun _ => rfl, fun h => ?_,
    fun h => ?_, fun h => ?_, rfl, rfl⟩ <;> cases h

theorem inv_atKexp {i : BitVec 6} (h1 : 4 ≤ i.toNat) (h2 : i.toNat ≤ 43)
    (hw : ∀ k : Fin 44, ((firstWords i.toNat)[k]).isSome = true ↔ k.val < i.toNat) : Inv (atKexp i) := by
  refine ⟨⟨(fun h => by cases h), (fun h => by cases h)⟩, (fun h => by cases h), fun _ => rfl, ?_, (fun h => by cases h), ?_, fun _ => rfl, ?_,
    (fun h => by cases h), (fun h => by cases h), rfl, rfl⟩
  · rintro (h | h) <;> cases h
  · intro _ j hj; cases hj; exact ⟨rfl, hw⟩
  · intro _ j hj; cases hj; exact ⟨h1, h2⟩

theorem inv_atEnc {r : BitVec 6} {b : Block} (h : 1 ≤ r.toNat ∧ r.toNat ≤ 10) : Inv (atEnc r b) := by
  refine ⟨⟨(fun h => by cases h), (fun h => by cases h)⟩, (fun h => by cases h), (fun h => by cases h), fun _ => ⟨rfl, rfl⟩,
    fun _ => all_firstWords, (fun h => by cases h), fun _ => rfl, (fun h => by cases h), ?_, (fun h => by cases h), rfl, rfl⟩
  intro _ j hj; cases hj; exact h

theorem inv_atDec {r : BitVec 6} {b : Block} (h : r.toNat ≤ 9) : Inv (atDec r b) := by
  refine ⟨⟨(fun h => by cases h), (fun h => by cases h)⟩, (fun h => by cases h), (fun h => by cases h), fun _ => ⟨rfl, rfl⟩,
    fun _ => all_firstWords, (fun h => by cases h), fun _ => rfl, (fun h => by cases h), (fun h => by cases h), ?_, rfl, rfl⟩
  intro _ j hj; cases hj; exact h

theorem inv_atKexp_4 : Inv (atKexp 4) := inv_atKexp (by decide) (by decide) (by decide +kernel)
theorem inv_atKexp_43 : Inv (atKexp 43) := inv_atKexp (by decide) (by decide) (by decide +kernel)

theorem witness_DecodeUndoesEncode : (Instr.kexpWord 43).wf = true ∧ encode (.kexpWord 43) = some (.uop 0x2B1) ∧
    (Instr.addRoundKey 0).wf = true ∧ encode (.addRoundKey 0) = some (.uop 0x003) := by decide
theorem witness_EncodeUndoesDecode : decode (.cmd 0xFFFF0001) = .ok (.keyLoad 0xFFFF) ∧
    decode (.cmd 0x12340000) = .ok .nop := by decide
theorem witness_CommandWordDecodes : decodeCmd (word32 16 1 0) = .error .reservedBits ∧
    decodeCmd (word32 16 0xFFF 1) = .error .reservedBits ∧ decodeCmd (word32 16 0 3) = .ok (.decrypt 16) ∧
    decodeCmd (word32 16 0 4) = .error .reservedOp ∧ decodeCmd (word32 16 0 15) = .error .reservedOp := by decide
theorem witness_ReservedMicroOpRefused : (State.reset.withFetchWord 16 0x031).ports.rst = false ∧
    (State.reset.withFetchWord 16 0x031).uopSlot = some (word12 0 3 1) ∧
    spellsNothing (step (State.reset.withFetchWord 16 0x031)) = true ∧
    spellsNothing (step (State.reset.withFetchWord 16 0x0B3)) = true ∧
    spellsNothing (step (State.reset.withFetchWord 16 0x40A)) = true ∧
    spellsNothing (step (State.reset.withFetchWord 16 0x00B)) = true ∧
    spellsNothing (step (State.reset.withFetchWord 16 0x012)) = true ∧
    spellsNothing (step (State.reset.withFetchWord 16 0x2B1)) = false ∧
    spellsNothing (step (State.reset.withFetchWord 16 0x0A3)) = false := by decide +kernel
theorem witness_SboxIsAffineOfInverse : (0x02 : Byte) ≠ 0 ∧ gfmul 0x02 0x8d = 0x01 ∧ sbox 0x02 = affine 0x8d := by decide
theorem witness_FieldIsPolynomialProduct : (0x53 : Byte) ≠ 0 ∧ gfmul 0x53 0xca = 1 := by decide

theorem witness_KexpWordDerivesWord : (atKexp 4).W[(4 : BitVec 6).toNat - 4]? = some (some 0x00010203) ∧
    (atKexp 4).W[(4 : BitVec 6).toNat - 1]? = some (some 0x0c0d0e0f) ∧
    (atKexp 43).W[(43 : BitVec 6).toNat - 4]? = some (some 0xbe2c974e) ∧
    (atKexp 43).W[(43 : BitVec 6).toNat - 1]? = some (some 0xf307a78b) := by decide +kernel
theorem witness_KeyReadsStopOnNone : spellsNothing (exec (.kexpWord 3) keyed) = true ∧
    spellsNothing (exec (.kexpWord 44) keyed) = true ∧ spellsNothing (exec (.addRoundKey 11) (loaded 0)) = true ∧
    (atKexp 4).W[(5 : BitVec 6).toNat - 1]? = some none ∧
    faultOf (exec (.kexpWord 5) (atKexp 4)) = some (.noneKeyWord 4) ∧
    (atKexp 4).W[(8 : BitVec 6).toNat - 4]? = some none ∧
    (atEnc 1 0).st.isSome = true ∧ ({ atEnc 1 0 with W := firstWords 43 } : State).W[4 * (10 : BitVec 6).toNat + 3]? = some none ∧
    faultOf (exec (.addRoundKey 10) { atEnc 1 0 with W := firstWords 43 }) = some (.noneKeyWord 43) := by decide +kernel

theorem witness_LoadStateFillsColumns : ((3 : Fin 4).val = (15 : Fin 16).val % 4 ∧ (3 : Fin 4).val = (15 : Fin 16).val / 4) ∧
    ((0 : Fin 4).val = (0 : Fin 16).val % 4 ∧ (0 : Fin 4).val = (0 : Fin 16).val / 4) := by decide
theorem witness_StoreStateSerializes : (loaded key1).st = some (blockToState key1) := rfl
theorem witness_StoreUndoesLoad :
    (nextOf (exec .loadState { loaded key1 with host := [⟨false, false, 0, key1, false⟩] })).isSome = true ∧
    nextOf (exec .storeState { loaded key1 with host := [⟨false, false, 0, key1, false⟩] }) =
      some { loaded key1 with host := [⟨false, false, 0, key1, false⟩], out := some (.block key1) } ∧
    ({ loaded key1 with host := [⟨false, false, 0, key1, false⟩] } : State).din = key1 := by decide +kernel
theorem witness_AddRoundKeyXorsWords : (10 : BitVec 6).toNat ≤ 10 ∧ (loaded 0).st = some (blockToState 0) ∧
    (∀ c : Fin 4, (loaded 0).W[4 * (10 : BitVec 6).toNat + c.val]? = some (some (v8.getD (40 + c.val) 0))) ∧
    ∀ c : Fin 4, (loaded 0).W[4 * (0 : BitVec 6).toNat + c.val]? = some (some (v8.getD c.val 0)) := by decide +kernel
theorem witness_SubBytesMapsEachByte : (loaded key1).st = some (blockToState key1) := rfl
theorem witness_ShiftRowsRotatesRows : (loaded key1).st = some (blockToState key1) ∧
    (0 : Fin 4).val = ((3 : Fin 4).val + (1 : Fin 4).val) % 4 ∧
    ((3 : Fin 4).val : Int) = (((0 : Fin 4).val : Int) - ((1 : Fin 4).val : Int)) % 4 := ⟨rfl, by decide, by decide⟩
theorem witness_MixColumnsWrittenOut : (loaded key1).st = some (blockToState key1) := rfl
theorem witness_InvMixColumnsWrittenOut : (loaded plain1).st = some (blockToState plain1) := rfl
theorem witness_StateReadsStopOnNone : readsState .storeState = true ∧ readsState (.addRoundKey 10) = true ∧
    keyed.st = none ∧ faultOf (exec .storeState keyed) = some .noneState := by decide +kernel
theorem witness_AddRoundKeyTwiceRestores : (nextOf (exec (.addRoundKey 10) (loaded 0))).isSome = true ∧
    (nextOf (exec (.addRoundKey 0) (loaded 0))).isSome = true := by decide +kernel
theorem witness_SubBytesInverses : (nextOf (exec .subBytes (loaded 0))).isSome = true ∧
    (nextOf (exec .invSubBytes (loaded 0))).isSome = true := by decide +kernel
theorem witness_ShiftRowsInversesAndCommute : (nextOf (exec .shiftRows (loaded 0))).isSome = true ∧
    (nextOf (exec .invShiftRows (loaded 0))).isSome = true := by decide +kernel
theorem witness_MixColumnsInversesAndLinear : (nextOf (exec .mixColumns (loaded 0))).isSome = true ∧
    (nextOf (exec .invMixColumns (loaded 0))).isSome = true ∧
    ∀ r c : Fin 4, (blockToState 3)[r][c] = (blockToState 1)[r][c] ^^^ (blockToState 2)[r][c] := by decide +kernel

theorem witness_NopAnswersOk : keyed.phase = .idle ∧ Offered (offering 0xFFFF0000 0 keyed) (word32 0xFFFF 0 0) :=
  ⟨rfl, offered_offering rfl rfl⟩
theorem witness_KeyLoadStartsExpansion : State.reset.phase = .idle ∧ keyed.phase = .idle := ⟨rfl, rfl⟩
theorem witness_KeyLoadBadLengthFails : keyed.phase = .idle ∧ (0 : BitVec 16) ≠ 16 ∧
    Offered (offering 0x000F0001 0 keyed) (word32 15 0 1) ∧ Offered (offering 0x00100001 0 keyed) (word32 16 0 1) :=
  ⟨rfl, by decide, offered_offering rfl rfl, offered_offering rfl rfl⟩
theorem witness_EncryptStartsRounds : keyed.phase = .idle ∧ keyed.keyValid = true ∧
    ∀ c : Fin 4, keyed.W[c.val]? = some (some (v8.getD c.val 0)) := by decide +kernel
theorem witness_DecryptStartsRounds : keyed.phase = .idle ∧ keyed.keyValid = true ∧
    ∀ c : Fin 4, keyed.W[40 + c.val]? = some (some (v8.getD (40 + c.val) 0)) := by decide +kernel
theorem witness_CipherWithoutKeyFails : State.reset.keyValid = false ∧ State.reset.phase = .idle ∧
    (offering 0x000F0003 0 State.reset).keyValid = false ∧ Offered (offering 0x000F0003 0 State.reset) (word32 15 0 3) :=
  ⟨rfl, rfl, rfl, offered_offering rfl rfl⟩
theorem witness_CipherBadLengthFails : keyed.keyValid = true ∧ keyed.phase = .idle ∧ (17 : BitVec 16) ≠ 16 ∧
    Offered (offering 0x00110002 0 keyed) (word32 17 0 2) := ⟨rfl, rfl, by decide, offered_offering rfl rfl⟩
theorem witness_IllegalCommandAnswered : Offered (offering 0xFFFF0010 0 keyed) (word32 0xFFFF 1 0) ∧
    Offered (offering 0x00100004 0 keyed) (word32 16 0 4) ∧ 4 ≤ (4 : BitVec 4).toNat :=
  ⟨offered_offering rfl rfl, offered_offering rfl rfl, by decide⟩
theorem witness_ErrorsChangeOnlyResponse : Offered (offering 0x00110001 0 keyed) 0x00110001 ∧
    rspAfter (step (offering 0x00110001 0 keyed)) = some ⟨.invalidKeyLength, none⟩ ∧
    Inv (atEnc 10 0) ∧ (atEnc 10 0).phase ≠ .idle ∧ (rspAfter (step (atEnc 10 0))).isSome = true :=
  ⟨offered_offering rfl rfl, by decide +kernel, inv_atEnc (by decide), by decide, by decide +kernel⟩
theorem witness_BusyCoreIgnoresHost : Running (atEnc 1 0) ∧ (atEnc 1 0).phase ≠ .idle ∧
    (([] : List HostDrive).headD HostDrive.quiet).rst = false ∧ (nextOf (step (atEnc 1 0))).isSome = true :=
  ⟨running_quiet rfl rfl, by decide, rfl, by decide +kernel⟩

theorem witness_StepRunsDecodedInstruction : Offered (offering 0x00100002 plain1 keyed) 0x00100002 ∧
    decode (.cmd 0x00100002) = .ok (.encrypt 16) ∧
    (nextOf (exec (.encrypt 16) (offering 0x00100002 plain1 keyed))).isSome = true ∧
    ((loaded 0).withFetchWord 16 0x0A3).ports.rst = false ∧ ((loaded 0).withFetchWord 16 0x0A3).ports.cmdValid = false ∧
    ((loaded 0).withFetchWord 16 0x0A3).uopSlot = some 0x0A3 ∧ decode (.uop 0x0A3) = .ok (.addRoundKey 10) ∧
    (nextOf (exec (.addRoundKey 10) { (loaded 0).withFetchWord 16 0x0A3 with uopSlot := none })).isSome = true ∧
    Running keyed ∧ keyed.phase = .idle ∧ keyed.ports.cmdValid = false :=
  ⟨offered_offering rfl rfl, by decide, by decide +kernel, rfl, rfl, by decide, by decide, by decide +kernel,
    running_quiet rfl rfl, rfl, rfl⟩
theorem witness_PlacedWordRunsNext : decodeTableWord 32 0x00100001 = some (.keyLoad 16) ∧
    (nextOf (step (State.reset.withFetchWord 32 0x00100001))).isSome = true ∧
    decodeTableWord 16 0x002 = some .loadState ∧ (nextOf (step (State.reset.withFetchWord 16 0x002))).isSome = true := by
  decide +kernel
theorem witness_KexpStepRunsKexpWord : Running (atKexp 4) ∧ Running (atKexp 43) ∧ (atKexp 43).ctr = some 43 ∧
    (nextOf (runInstrs [.kexpWord 4] (atKexp 4))).isSome = true ∧
    (nextOf (runInstrs [.kexpWord 43] (atKexp 43))).isSome = true :=
  ⟨running_quiet rfl rfl, running_quiet rfl rfl, rfl, by decide +kernel, by decide +kernel⟩
theorem witness_EncStepRunsMicroOps : Running (atEnc 1 0) ∧ Running (atEnc 10 0) ∧
    (nextOf (runInstrs [.subBytes, .shiftRows, .mixColumns, .addRoundKey 1] (atEnc 1 0))).isSome = true ∧
    (nextOf (runInstrs [.subBytes, .shiftRows, .mixColumns, .addRoundKey 9] (atEnc 9 0))).isSome = true ∧
    (nextOf (runInstrs [.subBytes, .shiftRows, .addRoundKey 10, .storeState]
      (atEnc 10 0xbd6e7c3df2b5779e0b61216e8b10b689))).bind State.out = some (.block 0x69c4e0d86a7b0430d8cdb78070b4c55a) :=
  ⟨running_quiet rfl rfl, running_quiet rfl rfl, by decide +kernel, by decide +kernel, by decide +kernel⟩
theorem witness_DecStepRunsMicroOps : Running (atDec 9 0) ∧ Running (atDec 0 0) ∧
    (nextOf (runInstrs [.invShiftRows, .invSubBytes, .addRoundKey 9, .invMixColumns] (atDec 9 0))).isSome = true ∧
    (nextOf (runInstrs [.invShiftRows, .invSubBytes, .addRoundKey 1, .invMixColumns] (atDec 1 0))).isSome = true ∧
    (nextOf (runInstrs [.invShiftRows, .invSubBytes, .addRoundKey 0, .storeState]
      (atDec 0 0x6353e08c0960e104cd70b751bacad0e7))).bind State.out = some (.block plain1) :=
  ⟨running_quiet rfl rfl, running_quiet rfl rfl, by decide +kernel, by decide +kernel, by decide +kernel⟩
theorem witness_AdvanceFollowsTable : Inv (atKexp 4) ∧ Inv (atKexp 43) ∧ Inv (atEnc 9 0) ∧ Inv (atEnc 10 0) ∧ Inv (atDec 1 0) ∧
    Inv (atDec 0 0) ∧ (atKexp 4).ports.rst = false :=
  ⟨inv_atKexp_4, inv_atKexp_43, inv_atEnc (by decide), inv_atEnc (by decide), inv_atDec (by decide), inv_atDec (by decide), rfl⟩
theorem witness_AdvanceFollowsTable_stops : Running (atKexp 3) ∧ Running (atKexp 44) ∧ Running (atEnc 0 0) ∧
    Running (atEnc 11 0) ∧ Running (atDec 10 0) ∧ faultOf (step (atKexp 3)) = some .badSequence ∧
    faultOf (step (atKexp 44)) = some .badSequence ∧ faultOf (step (atEnc 0 0)) = some .badSequence ∧
    faultOf (step (atEnc 11 0)) = some .badSequence ∧ faultOf (step (atDec 10 0)) = some .badSequence ∧
    faultOf (step { atDec 0 0 with ctr := none }) = some .noneCounter :=
  ⟨running_quiet rfl rfl, running_quiet rfl rfl, running_quiet rfl rfl, running_quiet rfl rfl, running_quiet rfl rfl,
    by decide +kernel, by decide +kernel, by decide +kernel, by decide +kernel, by decide +kernel, by decide +kernel⟩
theorem witness_ResetClearsEverything : (resetting (atKexp 20)).ports.rst = true ∧ (resetting keyed).ports.rst = true :=
  ⟨rfl, rfl⟩
theorem witness_OutputPortsShowResponse : keyed.rsp = none ∧
    ({ keyed with rsp := some ⟨.ok, some 7⟩ } : State).rsp = some ⟨.ok, some 7⟩ := ⟨rfl, rfl⟩

theorem witness_StepKeepsInvariants : Inv (atKexp 43) ∧ (nextOf (step (atKexp 43))).isSome = true ∧ Inv (atEnc 1 0) ∧
    (nextOf (step (atEnc 1 0))).isSome = true ∧ Inv (atDec 0 0) ∧ (nextOf (step (atDec 0 0))).isSome = true :=
  ⟨inv_atKexp_43, by decide +kernel, inv_atEnc (by decide), by decide +kernel, inv_atDec (by decide), by decide +kernel⟩
theorem witness_ReachableNeverStops : Inv keyed ∧ Reachable { State.reset with host := [] } := ⟨inv_keyed, .reset []⟩

/-- V8 is a schedule, word by word (V7). -/
theorem schedule_v8 {n : Nat} {W : KeyStore} (h : ∀ i : Fin 44, i.val < n → W[i] = some (v8.getD i.val 0)) (hn : n ≤ 44) :
    ScheduleUpTo key1 n W := by
  have g : ∀ i, i < n → W[i]? = some (some (v8.getD i 0)) := fun i hi =>
    (getElem_eq_iff_getElem? W ⟨i, by omega⟩ _).mp (h ⟨i, by omega⟩ hi)
  have k0 : ∀ i : Fin 4, v8.getD i.val 0 = keyWord key1 i.val := by decide +kernel
  have k1 : ∀ i : Fin 44, 4 ≤ i.val →
      v8.getD i.val 0 = v8.getD (i.val - 4) 0 ^^^ kexpTemp i.val (v8.getD (i.val - 1) 0) := by decide +kernel
  refine ⟨fun i hi h4 => by rw [g i hi, k0 ⟨i, h4⟩], fun i h1 h2 h3 => ?_⟩
  exact ⟨_, _, g _ (by omega), g _ (by omega), by rw [g i h2, k1 ⟨i, h3⟩ h1]⟩

theorem scheduleInv_keyed : ScheduleInv keyed :=
  ⟨fun _ => ⟨key1, schedule_v8 (by decide +kernel) (by decide)⟩, fun h => by cases h⟩
theorem scheduleInv_atKexp_43 : ScheduleInv (atKexp 43) := by
  refine ⟨(fun h => by cases h), fun _ i hi => ?_⟩
  cases hi
  exact ⟨key1, schedule_v8 (by decide +kernel) (by decide)⟩

theorem witness_StepKeepsSchedule : Inv (atKexp 43) ∧ ScheduleInv (atKexp 43) ∧ (nextOf (step (atKexp 43))).isSome = true ∧
    Inv keyed ∧ ScheduleInv keyed ∧ (nextOf (step keyed)).isSome = true :=
  ⟨inv_atKexp_43, scheduleInv_atKexp_43, by decide +kernel, inv_keyed, scheduleInv_keyed, by decide +kernel⟩
theorem witness_StepKeepsResponseData : Inv (atEnc 10 0) ∧ RspInv (atEnc 10 0) ∧ (nextOf (step (atEnc 10 0))).isSome = true := by
  refine ⟨inv_atEnc (by decide), fun r h => ?_, by decide +kernel⟩
  cases h
theorem witness_KeyStaysLoaded : Inv keyed ∧ (nextOf (step keyed)).isSome = true ∧ keyed.ports.rst = false ∧
    keyed.phase ≠ .keyexp ∧ ¬ (keyed.phase = .idle ∧ keyed.ports.cmdValid = true ∧ keyed.ports.cmdWord = word32 16 0 0x1) :=
  ⟨inv_keyed, by decide +kernel, rfl, by decide, by decide⟩

theorem holds_keyed : Holds keyed.W sched := by unfold Holds; decide +kernel

theorem noReset_single (op : BitVec 4) (d : Block) (hold : Bool) (s : State) :
    NoReset { s with host := [validOffer op d hold] } := by
  intro x hx
  simp only [List.mem_singleton] at hx
  rw [hx]
  rfl

theorem witness_KeyLoadRunsExpansion : ({ keyed with host := [validOffer 0x1 key1 true] } : State).phase = .idle ∧
    ({ keyed with host := [validOffer 0x1 key1 true] } : State).uopSlot = none ∧
    ({ keyed with host := [validOffer 0x1 key1 true] } : State).ports = validOffer 0x1 key1 true ∧
    NoReset { keyed with host := [validOffer 0x1 key1 true] } := ⟨rfl, rfl, rfl, noReset_single _ _ _ _⟩
theorem witness_EncryptRunsEncBlock : Holds keyed.W sched ∧ keyed.keyValid = true ∧
    ({ keyed with host := [validOffer 0x2 plain1 false] } : State).ports = validOffer 0x2 plain1 false ∧
    NoReset { keyed with host := [validOffer 0x2 plain1 false] } := ⟨holds_keyed, rfl, rfl, noReset_single _ _ _ _⟩
theorem witness_DecryptRunsDecBlock : Holds keyed.W sched ∧ keyed.keyValid = true ∧
    ({ keyed with host := [validOffer 0x3 plain1 true] } : State).ports = validOffer 0x3 plain1 true ∧
    NoReset { keyed with host := [validOffer 0x3 plain1 true] } := ⟨holds_keyed, rfl, rfl, noReset_single _ _ _ _⟩
theorem witness_KeyThenEncryptUsesKey : State.reset.phase = .idle ∧ State.reset.uopSlot = none ∧
    NoReset { State.reset with host := [validOffer 0x1 key1 false, validOffer 0x2 plain1 true] } := by
  refine ⟨rfl, rfl, fun x hx => ?_⟩
  simp only [List.mem_cons, List.not_mem_nil, or_false] at hx
  rcases hx with rfl | rfl <;> rfl
theorem witness_DecryptRetracesEncrypt : encShifted v8 plain1 1 = blockToState 0x6353e08c0960e104cd70b751bacad0e7 ∧
    encShifted v8 plain1 10 = blockToState 0x7ad5fda789ef4e272bca100b3d9ff59f ∧
    decAfter v8 0x69c4e0d86a7b0430d8cdb78070b4c55a 9 = blockToState 0x54d990a16ba09ab596bbf40ea111702f := by decide +kernel
theorem witness_CommandInFlightEnds : Inv (atEnc 10 0) ∧ NoReset (atEnc 10 0) ∧ (atEnc 10 0).ctr = some 10 ∧
    Inv (atKexp 4) ∧ NoReset (atKexp 4) ∧ Inv (atDec 0 0) ∧ NoReset (atDec 0 0) :=
  ⟨inv_atEnc (by decide), noReset_quiet rfl, rfl, inv_atKexp_4, noReset_quiet rfl, inv_atDec (by decide), noReset_quiet rfl⟩
theorem witness_SequencingIgnoresData : Inv (atEnc 10 0) ∧ Inv (atEnc 10 plain1) ∧ SameControl (atEnc 10 0) (atEnc 10 plain1) ∧
    (nextOf (runSteps 1 (atEnc 10 0))).isSome = true :=
  ⟨inv_atEnc (by decide), inv_atEnc (by decide), ⟨rfl, rfl, rfl, rfl, rfl, rfl⟩, by decide +kernel⟩

end Sys2Proof.Tests
end

section
/-! PROOFS. Rules for the output ports of R28, and the reset values of R36. -/

namespace Sys2Proof.Machine

variable {s : State}

theorem State.cmdReady_of_idle (h : s.phase = .idle) : s.cmdReady = true := decide_eq_true h

theorem State.rspValid_of_noRsp (h : s.rsp = none) : s.rspValid = false := by simp [State.rspValid, h]

theorem State.rspStatus_of_noRsp (h : s.rsp = none) : s.rspStatus = none := by simp [State.rspStatus, h]

theorem State.dout_of_noRsp (h : s.rsp = none) : s.dout = none := by simp [State.dout, h]

theorem State.reset_W_getElem (i : Fin 44) : State.reset.W[i] = none := Vector.getElem_replicate i.isLt

@[simp] theorem State.reset_phase : State.reset.phase = .idle := rfl
@[simp] theorem State.reset_rsp : State.reset.rsp = none := rfl

/-- Settles O45. The elements have their reset values by definition; the ports follow from `phase` and `rsp` alone. -/
theorem resetValues : Obligations.ResetValues :=
  ⟨State.reset_W_getElem, rfl, rfl, State.reset_phase, rfl, State.reset_rsp,
    State.cmdReady_of_idle State.reset_phase, State.rspValid_of_noRsp State.reset_rsp,
    State.rspStatus_of_noRsp State.reset_rsp, State.dout_of_noRsp State.reset_rsp⟩

end Sys2Proof.Machine
end

section
/-! PROOFS. The output ports as functions of `phase` and `rsp` (R26, R28, R80), and the status codes (R81). -/

namespace Sys2Proof.Machine

variable {s : State} {r : Response}

theorem State.cmdReady_iff_idle : s.cmdReady = true ↔ s.phase = .idle := decide_eq_true_iff

theorem State.rspValid_iff_rsp : s.rspValid = true ↔ s.rsp ≠ none := Option.isSome_iff_ne_none

theorem State.rspStatus_of_rsp (h : s.rsp = some r) : s.rspStatus = some r.status.code := by simp [State.rspStatus, h]

theorem State.dout_of_rsp (h : s.rsp = some r) : s.dout = r.data := by simp [State.dout, h]

theorem Status.code_toNat_le (e : Status) : e.code.toNat ≤ 4 := by cases e <;> decide

/-- Settles O46. A port is read off `phase` or `rsp` alone, and each status has one of the codes 0 to 4. -/
theorem outputPortsShowResponse : Obligations.OutputPortsShowResponse :=
  ⟨fun _ => ⟨State.cmdReady_iff_idle, State.rspValid_iff_rsp,
      fun h => ⟨State.rspStatus_of_noRsp h, State.dout_of_noRsp h⟩⟩,
    fun _ _ h => ⟨State.rspStatus_of_rsp h, State.dout_of_rsp h⟩,
    rfl, rfl, rfl, rfl, rfl, Status.code_toNat_le⟩

end Sys2Proof.Machine
end

section
/-! PROOFS. GFMUL as a linear map of either operand, and its neutral and absorbing operands (R100, R101). -/

namespace Sys2Proof.Machine

/-! ### Selecting a summand by a bit is linear in the bit and in the summand -/

/-- Where both bits are set the summand cancels. -/
theorem select_bit_xor (p q : Bool) (a : Byte) :
    (if p ^^ q then a else 0) = (if p then a else 0) ^^^ (if q then a else 0) := by
  cases p <;> cases q <;> simp

theorem select_summand_xor (p : Bool) (a₁ a₂ : Byte) :
    (if p then a₁ ^^^ a₂ else 0) = (if p then a₁ else 0) ^^^ (if p then a₂ else 0) := by
  cases p <;> simp

/-! ### One iteration of the loop of R100 -/

/-- The accumulator takes up the summand that the lowest bit of the second operand selects. -/
theorem gfMulLoop_succ (n : Nat) (acc a b : Byte) :
    gfMulLoop (n + 1) acc a b = gfMulLoop n (acc ^^^ if b.getLsbD 0 then a else 0) (xtime a) (b >>> 1) := by
  rw [gfMulLoop]
  split <;> simp

/-- Doubling is linear: the bit shifted out of a sum is the sum of the bits shifted out. -/
theorem xtime_xor (a₁ a₂ : Byte) : xtime (a₁ ^^^ a₂) = xtime a₁ ^^^ xtime a₂ := by
  simp only [xtime, BitVec.getLsbD_xor, select_bit_xor, BitVec.shiftLeft_xor_distrib]
  ac_rfl

/-- Doubling a power of `x` below the top bit only shifts it: nothing is reduced. -/
theorem xtime_one_shiftLeft (k : Fin 7) : xtime ((1 : Byte) <<< k.val) = (1 : Byte) <<< (k.val + 1) := by
  revert k
  decide

/-- A byte is its lowest bit and the rest of it, put back in its place. -/
theorem lowBit_xor_rest (b : Byte) : (if b.getLsbD 0 then 1 else 0) ^^^ (b >>> 1) <<< 1 = b := by
  ext i hi
  cases i with
  | zero => cases h : b.getLsbD 0 <;> simp_all
  | succ i => split <;> simp [Nat.add_comm 1 i, BitVec.getLsbD_eq_getElem hi]

theorem lowBit_xor_rest_shiftLeft (b : Byte) (k : Nat) :
    (if b.getLsbD 0 then (1 : Byte) <<< k else 0) ^^^ (b >>> 1) <<< (k + 1) = b <<< k := by
  conv_rhs => rw [← lowBit_xor_rest b, BitVec.shiftLeft_xor_distrib, ← BitVec.shiftLeft_add, Nat.add_comm 1 k]
  split <;> simp

/-! ### The whole loop -/

theorem gfMulLoop_xor_left (n : Nat) (acc₁ acc₂ a₁ a₂ b : Byte) :
    gfMulLoop n (acc₁ ^^^ acc₂) (a₁ ^^^ a₂) b = gfMulLoop n acc₁ a₁ b ^^^ gfMulLoop n acc₂ a₂ b := by
  induction n generalizing acc₁ acc₂ a₁ a₂ b with
  | zero => rfl
  | succ n ih =>
    simp only [gfMulLoop_succ, xtime_xor, select_summand_xor, ← ih]
    congr 1
    ac_rfl

theorem gfMulLoop_xor_right (n : Nat) (acc₁ acc₂ a b₁ b₂ : Byte) :
    gfMulLoop n (acc₁ ^^^ acc₂) a (b₁ ^^^ b₂) = gfMulLoop n acc₁ a b₁ ^^^ gfMulLoop n acc₂ a b₂ := by
  induction n generalizing acc₁ acc₂ a b₁ b₂ with
  | zero => rfl
  | succ n ih =>
    simp only [gfMulLoop_succ, BitVec.getLsbD_xor, BitVec.ushiftRight_xor_distrib, select_bit_xor, ← ih]
    congr 1
    ac_rfl

/-- While the first operand is a power of `x` that needs no reduction, the loop adds the second operand, shifted. -/
theorem gfMulLoop_one_shiftLeft (n k : Nat) (h : k + n = 7) (acc b : Byte) :
    gfMulLoop (n + 1) acc ((1 : Byte) <<< k) b = acc ^^^ b <<< k := by
  induction n generalizing k acc b with
  | zero =>
    subst h
    rw [gfMulLoop_succ, ← lowBit_xor_rest_shiftLeft b 7]
    simp [gfMulLoop]
  | succ n ih =>
    rw [gfMulLoop_succ, xtime_one_shiftLeft ⟨k, by omega⟩, ih (k + 1) (by omega), BitVec.xor_assoc,
      lowBit_xor_rest_shiftLeft]

/-! ### GFMUL -/

theorem gfmul_xor_left (a₁ a₂ b : Byte) : gfmul (a₁ ^^^ a₂) b = gfmul a₁ b ^^^ gfmul a₂ b :=
  gfMulLoop_xor_left 8 0 0 a₁ a₂ b

theorem gfmul_xor_right (a b₁ b₂ : Byte) : gfmul a (b₁ ^^^ b₂) = gfmul a b₁ ^^^ gfmul a b₂ :=
  gfMulLoop_xor_right 8 0 0 a b₁ b₂

/-- A linear map takes 0, which is 0 xor 0, to 0. -/
@[simp] theorem gfmul_zero_left (b : Byte) : gfmul 0 b = 0 :=
  (gfmul_xor_left 0 0 b).trans BitVec.xor_self

@[simp] theorem gfmul_one_left (b : Byte) : gfmul 1 b = b :=
  (gfMulLoop_one_shiftLeft 7 0 rfl 0 b).trans (by simp)

/-- Settles O9. Linearity is an induction over the iterations of R100's loop, and 0 absorbs by it; 1 is neutral because
its powers of `x` up to the top bit need no reduction. -/
theorem fieldLaws : Obligations.FieldLaws :=
  ⟨gfmul_one_left, gfmul_zero_left, gfmul_xor_right, gfmul_xor_left⟩

end Sys2Proof.Machine
end

section
/-! PROOFS. LOAD_KEY (R112): the store it leaves, cell by cell, and the step it makes. -/

namespace Sys2Proof.Machine

theorem exec_loadKey (s : State) : exec .loadKey s = .next { s with W := loadKeyWords s.din s.W } := rfl

/-- R112 at a cell of the store, its word read as a slice of the key and not as four packed bytes. -/
theorem getElem_loadKeyWords (d : Block) (W : KeyStore) (i : Fin 44) :
    (loadKeyWords d W)[i] = if i.val < 4 then some (d.extractLsb' (96 - 32 * i.val) 32) else W[i] := by
  rw [getElem_eq_iff_getElem?, getElem?_loadKeyWords]
  split
  case isTrue h => rw [keyWord_eq d i.val h]
  case isFalse => exact (getElem_eq_iff_getElem? W i W[i]).mp rfl

/-- Settles O12. LOAD_KEY runs in every state and touches `W` alone, so what is left to say is what each cell then holds. -/
theorem loadKeyWritesFourWords : Obligations.LoadKeyWritesFourWords :=
  ⟨by decide, fun s => ⟨loadKeyWords s.din s.W, exec_loadKey s, getElem_loadKeyWords s.din s.W⟩⟩

end Sys2Proof.Machine
end

section
/-! PROOFS. Decoding a micro-operation word from its three fields (R84, R85), and the word of ADDROUNDKEY. -/

namespace Sys2Proof.Machine

open Sys2Proof.Spec

variable (rsv2 : BitVec 2) (idx : BitVec 6) (op : BitVec 4)

@[simp] theorem uopOp_word12 : uopOp (word12 rsv2 idx op) = op := BitVec.extractLsb'_append_eq_right

@[simp] theorem uopIdx_word12 : uopIdx (word12 rsv2 idx op) = idx :=
  (BitVec.extractLsb'_append_eq_of_le (by decide)).trans BitVec.extractLsb'_append_eq_right

@[simp] theorem uopRsv2_word12 : uopRsv2 (word12 rsv2 idx op) = rsv2 :=
  (BitVec.extractLsb'_append_eq_of_le (by decide)).trans BitVec.extractLsb'_append_eq_left

/-- R85: the ADDROUNDKEY word of a legal round index. -/
theorem decodeUop_addRoundKey {r : BitVec 6} (hr : r.toNat ≤ 10) :
    decodeUop (word12 0 r 0x3) = .ok (.addRoundKey r) := by
  simp [decodeUop, withIdx, Instr.wf, hr]

end Sys2Proof.Machine
end

section
/-! PROOFS. LOAD_STATE (R130): the array it leaves, byte by byte of `din`. -/

namespace Sys2Proof.Machine

/-- R130: the array holds byte `i` of the block at row `i mod 4`, column `i div 4`. -/
theorem byteAt_blockToState_of_index (b : Block) {r c : Fin 4} {i : Nat} (hr : r.val = i % 4) (hc : c.val = i / 4) :
    (blockToState b).byteAt r c = b.extractLsb' (120 - 8 * i) 8 := by
  have hi : 4 * c.val + r.val = i := by omega
  rw [byteAt_blockToState, hi, portByte]

/-- Settles O15. LOAD_STATE reads nothing but `din`, and the array it writes is the block's bytes in column order. -/
theorem loadStateFillsColumns : Obligations.LoadStateFillsColumns :=
  ⟨by decide, fun s => ⟨blockToState s.din, rfl, fun _ _ _ hr hc => byteAt_blockToState_of_index s.din hr hc⟩⟩

end Sys2Proof.Machine
end

section
/-! PROOFS. ADDROUNDKEY (R132, R133): the round key as four words, the bytes it leaves, and that it undoes itself. -/

namespace Sys2Proof.Machine

theorem roundKeyAt_ofFn {s : State} {r : Nat} {k : Fin 4 → Word} (h : ∀ c : Fin 4, s.W[4 * r + c.val]? = some (some (k c))) :
    RoundKeyAt s r (Vector.ofFn k) := fun c => by simp [h c]

/-- R132, a byte of a word read as a slice of it. -/
theorem byteAt_addRoundKey_ofFn (k : Fin 4 → Word) (a : StateArr) (j c : Fin 4) :
    (addRoundKey (Vector.ofFn k) a).byteAt j c = a.byteAt j c ^^^ (k c).extractLsb' (24 - 8 * j.val) 8 := by
  simp [wordByte]

/-- Settles O18. ADDROUNDKEY reads the four words as one round key, and its array is the old one xored with their bytes. -/
theorem addRoundKeyXorsWords : Obligations.AddRoundKeyXorsWords :=
  ⟨fun _ hr => decodeUop_addRoundKey hr, fun _ _ a k hr ha hk =>
    ⟨addRoundKey (Vector.ofFn k) a, execAddRoundKey_of hr ha (roundKeyAt_ofFn hk), byteAt_addRoundKey_ofFn k a⟩⟩

/-- Each byte is xored twice with the same byte of the round key. -/
@[simp] theorem addRoundKey_addRoundKey (ks : Vector Word 4) (a : StateArr) : addRoundKey ks (addRoundKey ks a) = a :=
  StateArr.ext_byteAt fun j c => by simp

theorem State.set_st_self {s : State} {a : StateArr} (h : s.st = some a) : { s with st := some a } = s := by
  rw [← h]

/-- Settles O24. The first run leaves `W` alone, so the second finds the same round key there and undoes it in `st`. -/
theorem addRoundKeyTwiceRestores : Obligations.AddRoundKeyTwiceRestores := by
  intro s t r h
  obtain ⟨hr, a, ks, ha, hks, rfl⟩ := execAddRoundKey_eq_next.mp h
  refine execAddRoundKey_eq_next.mpr ⟨hr, _, ks, rfl, hks.of_W rfl, ?_⟩
  rw [addRoundKey_addRoundKey]
  exact (State.set_st_self ha).symm

end Sys2Proof.Machine
end

section
/-! PROOFS. SUBBYTES, INVSUBBYTES (R134, R135), SHIFTROWS and INVSHIFTROWS (R137, R138), byte by byte. -/

namespace Sys2Proof.Machine

/-- Settles O19. Both run wherever `st` holds an array, and each byte they leave is the table entry of the byte it was. -/
theorem subBytesMapsEachByte : Obligations.SubBytesMapsEachByte :=
  ⟨by decide, by decide, fun _ a ha => ⟨subBytes a, invSubBytes a, mapSt_of_some ha _, mapSt_of_some ha _,
    fun r c => ⟨byteAt_subBytes a r c, byteAt_invSubBytes a r c⟩⟩⟩

/-- R137: addition of columns in `Fin 4` is addition modulo 4. -/
theorem byteAt_shiftRows_of_mod (a : StateArr) {r c d : Fin 4} (h : d.val = (c.val + r.val) % 4) :
    (shiftRows a).byteAt r c = a.byteAt r d := by
  have hd : d = c + r := Fin.ext (h.trans (Fin.val_add c r).symm)
  rw [hd, byteAt_shiftRows]

/-- R138: subtraction of columns in `Fin 4` is the integers' difference modulo 4, in 0..3 (R104). -/
theorem byteAt_invShiftRows_of_mod (a : StateArr) {r c d : Fin 4}
    (h : (d.val : Int) = ((c.val : Int) - (r.val : Int)) % 4) : (invShiftRows a).byteAt r c = a.byteAt r d := by
  have hd : d = c - r := Fin.ext (Int.ofNat_inj.mp (h.trans (Fin.coe_int_sub_eq_mod c r).symm))
  rw [hd, byteAt_invShiftRows]

/-- Settles O20. A rotation takes each byte from the column that R137 and R138 name. -/
theorem shiftRowsRotatesRows : Obligations.ShiftRowsRotatesRows :=
  ⟨by decide, by decide, fun _ a ha => ⟨shiftRows a, invShiftRows a, mapSt_of_some ha _, mapSt_of_some ha _,
    fun _ _ _ => ⟨byteAt_shiftRows_of_mod a, byteAt_invShiftRows_of_mod a⟩⟩⟩

end Sys2Proof.Machine
end

section
/-! PROOFS. MIXCOLUMNS and INVMIXCOLUMNS (R140, R141): a column times a row of the matrix, written out. -/

namespace Sys2Proof.Machine

/-- A byte of a matrix product, from the four entries of the matrix row. -/
theorem byteAt_mulMatrix_of_row {m : StateArr} {r : Fin 4} {w x y z : Byte} (hm : m[r] = #v[w, x, y, z]) (a : StateArr)
    (c : Fin 4) : (mulMatrix m a).byteAt r c =
      gfmul w (a.byteAt 0 c) ^^^ gfmul x (a.byteAt 1 c) ^^^ gfmul y (a.byteAt 2 c) ^^^ gfmul z (a.byteAt 3 c) := by
  simp [byteAt_mulMatrix, StateArr.byteAt_eq m, hm]

/-- Settles O21. Each row is the matrix product, where an entry 01 leaves the byte as it is (R101). -/
theorem mixColumnsWrittenOut : Obligations.MixColumnsWrittenOut := by
  refine ⟨by decide, fun _ a ha => ⟨mixColumns a, mapSt_of_some ha _, fun c => ?_⟩⟩
  have row0 := byteAt_mulMatrix_of_row (m := mixMatrix) (r := 0) rfl a c
  have row1 := byteAt_mulMatrix_of_row (m := mixMatrix) (r := 1) rfl a c
  have row2 := byteAt_mulMatrix_of_row (m := mixMatrix) (r := 2) rfl a c
  have row3 := byteAt_mulMatrix_of_row (m := mixMatrix) (r := 3) rfl a c
  simp only [gfmul_one_left] at row0 row1 row2 row3
  exact ⟨row0, row1, row2, row3⟩

/-- Settles O22. Each row is the matrix product as it stands. -/
theorem invMixColumnsWrittenOut : Obligations.InvMixColumnsWrittenOut :=
  ⟨by decide, fun _ a ha => ⟨invMixColumns a, mapSt_of_some ha _, fun c =>
    ⟨byteAt_mulMatrix_of_row (r := 0) rfl a c, byteAt_mulMatrix_of_row (r := 1) rfl a c,
      byteAt_mulMatrix_of_row (r := 2) rfl a c, byteAt_mulMatrix_of_row (r := 3) rfl a c⟩⟩⟩

end Sys2Proof.Machine
end

section
/-! PROOFS. KEY_LOAD accepted (R162, R163): the store with the new key and no old word, cell by cell. -/

namespace Sys2Proof.Machine

/-- R163 at a cell of the store: of the old schedule only words 0..3 stay. -/
theorem getElem_discardWords (W : KeyStore) (i : Fin 44) : (discardWords W)[i] = if i.val < 4 then W[i] else none := by
  rw [getElem_eq_iff_getElem?, getElem?_discardWords]
  by_cases hi : i.val < 4
  · rw [if_neg (by omega), if_pos hi]
    exact (getElem_eq_iff_getElem? W i W[i]).mp rfl
  · rw [if_pos (by omega), if_neg hi]

theorem exec_keyLoad_valid {s : State} (hp : s.phase = .idle) :
    exec (.keyLoad 16) s = keyLoadStart { s with rsp := none } := by
  simp [exec, execKeyLoad_eq, hp]

/-- Settles O29. KEYLOAD_START writes the key over words 0..3 and then discards the others, so a cell holds a word of the
new key or none, whatever it held before. -/
theorem keyLoadStartsExpansion : Obligations.KeyLoadStartsExpansion := by
  intro s hp
  refine ⟨discardWords (loadKeyWords s.din s.W), (exec_keyLoad_valid hp).trans (keyLoadStart_eq _), fun i => ?_⟩
  rw [getElem_discardWords, getElem_loadKeyWords]
  split <;> rfl

end Sys2Proof.Machine
end

section
/-! PROOFS. ENCRYPT and DECRYPT accepted with a key (R166, R167, R170, R171): the block loaded and xored with a round key. -/

namespace Sys2Proof.Machine

variable {s : State}

/-- R130, R132: byte `4c + j` of the block stands at row `j`, column `c`, and is xored with byte `j` of key word `c`. -/
theorem byteAt_addRoundKey_blockToState (k : Fin 4 → Word) (b : Block) (j c : Fin 4) :
    (addRoundKey (Vector.ofFn k) (blockToState b)).byteAt j c =
      b.extractLsb' (120 - 8 * (4 * c.val + j.val)) 8 ^^^ (k c).extractLsb' (24 - 8 * j.val) 8 := by
  rw [byteAt_addRoundKey_ofFn, byteAt_blockToState, portByte]

theorem exec_encrypt_valid (hp : s.phase = .idle) (hv : s.keyValid = true) :
    exec (.encrypt 16) s = encStart { s with rsp := none } := by
  simp [exec, execEncrypt_eq, hp, hv]

theorem exec_decrypt_valid (hp : s.phase = .idle) (hv : s.keyValid = true) :
    exec (.decrypt 16) s = decStart { s with rsp := none } := by
  simp [exec, execDecrypt_eq, hp, hv]

/-- Settles O31. ENC_START finds round key 0 in `W[0..3]`; the array it leaves is the loaded block xored with it. -/
theorem encryptStartsRounds : Obligations.EncryptStartsRounds := by
  intro s k hp hv hk
  have hks : RoundKeyAt s 0 (Vector.ofFn k) := roundKeyAt_ofFn (by simpa using hk)
  refine ⟨addRoundKey (Vector.ofFn k) (blockToState s.din), ?_, byteAt_addRoundKey_blockToState k s.din⟩
  rw [exec_encrypt_valid hp hv]
  exact encStart_eq_next.mpr ⟨_, hks.of_W rfl, rfl⟩

/-- Settles O32. DEC_START finds round key 10 in `W[40..43]`; the array it leaves is the loaded block xored with it. -/
theorem decryptStartsRounds : Obligations.DecryptStartsRounds := by
  intro s k hp hv hk
  have hks : RoundKeyAt s 10 (Vector.ofFn k) := roundKeyAt_ofFn hk
  refine ⟨addRoundKey (Vector.ofFn k) (blockToState s.din), ?_, byteAt_addRoundKey_blockToState k s.din⟩
  rw [exec_decrypt_valid hp hv]
  exact decStart_eq_next.mpr ⟨_, hks.of_W rfl, rfl⟩

end Sys2Proof.Machine
end

section
/-! PROOFS. The KEXP steps (R164, R165) as KEXP_WORD and what follows it. -/

namespace Sys2Proof.Machine

open Sys2Proof.Spec

variable {s u : State} {i : BitVec 6}

/-- A list of one instruction is that instruction (R65). -/
theorem runInstrs_singleton (j : Instr) (s : State) : runInstrs [j] s = exec j s := by
  simp only [runInstrs]
  cases exec j s <;> rfl

/-- R164: after KEXP_WORD the counter goes up. -/
theorem kexpStep_of_kexpWord (h : execKexpWord i s = .next u) : kexpStep i s = .next { u with ctr := some (i + 1) } := by
  rw [kexpStep, h, andThen_next]

/-- R165: after KEXP_WORD `#43` the command ends. -/
theorem kexpFinal_of_kexpWord (h : execKexpWord 43 s = .next u) :
    kexpFinal s = .next { u with ctr := none, phase := .idle, keyValid := true, rsp := some ⟨.ok, none⟩ } := by
  rw [kexpFinal, h, andThen_next]
  rfl

/-- R177, the first row of KEYEXP. -/
theorem advance_kexpStep (hp : s.phase = .keyexp) (hc : s.ctr = some i) (h4 : 4 ≤ i.toNat) (h42 : i.toNat ≤ 42) :
    advance s = kexpStep i s := by
  rw [advance_at hc, hp]
  exact if_pos ⟨h4, h42⟩

/-- R177, the last row of KEYEXP. -/
theorem advance_kexpFinal (hp : s.phase = .keyexp) (hc : s.ctr = some 43) : advance s = kexpFinal s := by
  rw [advance_at hc, hp]
  rfl

/-- A step of a command in flight does what ADVANCE does; then only the host's list may shrink (R160, R237). -/
theorem step_of_advance {t : State} (hs : Running s) (hp : s.phase ≠ .idle) (h : advance s = .next t) :
    step s = .next { t with host := waitedHost t.host } := by
  rw [step_busy hs.1 hs.2 hp, h, andWaitHost_next, State.waitHost_eq]

/-- Settles O40. In KEYEXP the counter alone selects the row of R177, and either row runs KEXP_WORD first. -/
theorem kexpStepRunsKexpWord : Obligations.KexpStepRunsKexpWord := by
  intro s u i hs hp hc h4 _ hrun
  have hbusy : s.phase ≠ .idle := by simp [hp]
  rw [runInstrs_singleton] at hrun
  refine ⟨waitedHost u.host, fun h42 => ?_, fun h43 => ?_⟩
  · exact step_of_advance hs hbusy ((advance_kexpStep hp hc h4 h42).trans (kexpStep_of_kexpWord hrun))
  · obtain rfl : i = 43 := BitVec.eq_of_toNat_eq h43
    exact step_of_advance hs hbusy ((advance_kexpFinal hp hc).trans (kexpFinal_of_kexpWord hrun))

end Sys2Proof.Machine
end

section
/-! PROOFS. The fields of a word and the decoders: decoding and encoding undo each other (R75 to R90). -/

namespace Sys2Proof.Machine

open Sys2Proof.Spec

/-! ### A word and its fields -/

section Fields

variable (len : BitVec 16) (rsvd : BitVec 12) (op : BitVec 4)

@[simp] theorem cmdOp_word32 : cmdOp (word32 len rsvd op) = op := BitVec.extractLsb'_append_eq_right

@[simp] theorem cmdRsvd_word32 : cmdRsvd (word32 len rsvd op) = rsvd :=
  (BitVec.extractLsb'_append_eq_of_le (by decide)).trans BitVec.extractLsb'_append_eq_right

@[simp] theorem cmdLen_word32 : cmdLen (word32 len rsvd op) = len :=
  (BitVec.extractLsb'_append_eq_of_le (by decide)).trans
    ((BitVec.extractLsb'_append_eq_of_le (by decide)).trans BitVec.extractLsb'_eq_self)

/-- R75: a command word is its three fields. -/
theorem word32_fields (cw : BitVec 32) : word32 (cmdLen cw) (cmdRsvd cw) (cmdOp cw) = cw := by
  simp only [word32, cmdLen, cmdRsvd, cmdOp, BitVec.extractLsb'_append_extractLsb'_eq_extractLsb']
  exact BitVec.extractLsb'_eq_self

/-- R84: a micro-operation word is its three fields. -/
theorem word12_fields (w : BitVec 12) : word12 (uopRsv2 w) (uopIdx w) (uopOp w) = w := by
  simp only [word12, uopRsv2, uopIdx, uopOp, BitVec.extractLsb'_append_extractLsb'_eq_extractLsb']
  exact BitVec.extractLsb'_eq_self

end Fields

theorem cmdCode_eq (len : BitVec 16) (op : BitVec 4) : cmdCode len op = .cmd (word32 len 0 op) := rfl
theorem uopCode_eq (idx : BitVec 6) (op : BitVec 4) : uopCode idx op = .uop (word12 0 idx op) := rfl

/-! ### Command words (R83) -/

section Commands

variable (len : BitVec 16) {rsvd : BitVec 12} {op : BitVec 4}

theorem decodeCmd_of_rsvd (h : rsvd ≠ 0) : decodeCmd (word32 len rsvd op) = .error .reservedBits := by
  rw [decodeCmd, cmdRsvd_word32, if_pos h]

theorem decodeCmd_nop : decodeCmd (word32 len 0 0x0) = .ok .nop := by simp [decodeCmd]
theorem decodeCmd_keyLoad : decodeCmd (word32 len 0 0x1) = .ok (.keyLoad len) := by simp [decodeCmd]
theorem decodeCmd_encrypt : decodeCmd (word32 len 0 0x2) = .ok (.encrypt len) := by simp [decodeCmd]
theorem decodeCmd_decrypt : decodeCmd (word32 len 0 0x3) = .ok (.decrypt len) := by simp [decodeCmd]

theorem decodeCmd_of_op (h : 4 ≤ op.toNat) : decodeCmd (word32 len 0 op) = .error .reservedOp := by
  rw [decodeCmd, cmdRsvd_word32, cmdOp_word32, if_neg (not_not.mpr rfl)]
  split
  case h_5 => rfl
  all_goals omega

/-- Settles O3, one rule of R83 for each clause. -/
theorem commandWordDecodes : Obligations.CommandWordDecodes := by
  intro len rsvd op
  refine ⟨decodeCmd_of_rsvd len, ?_, ?_, ?_, ?_, ?_⟩
  · rintro rfl rfl; exact decodeCmd_nop len
  · rintro rfl rfl; exact decodeCmd_keyLoad len
  · rintro rfl rfl; exact decodeCmd_encrypt len
  · rintro rfl rfl; exact decodeCmd_decrypt len
  · rintro rfl h; exact decodeCmd_of_op len h

end Commands

/-! ### Micro-operation words (R85) -/

theorem noIdx_eq_ok {idx : BitVec 6} {i j : Instr} : noIdx idx i = .ok j ↔ idx = 0 ∧ i = j := by
  unfold noIdx
  split
  case isTrue h => simp [h]
  case isFalse h => exact iff_of_false (by simp) fun e => h e.1

theorem withIdx_eq_ok {i j : Instr} : withIdx i = .ok j ↔ i.wf = true ∧ i = j := by
  unfold withIdx
  split
  case isTrue h => simp [h]
  case isFalse h => exact iff_of_false (by simp) fun e => h e.1

section Rows

variable {idx : BitVec 6} {op k : BitVec 4} {i j : Instr} (hop : op.toNat = k.toNat)

include hop

/-- A row of R85 that takes no index: its word decodes to its own instruction alone. -/
theorem encode_of_noIdx_row (hc : encode i = some (uopCode 0 k)) (hwf : i.wf = true) (h : noIdx idx i = .ok j) :
    j.wf = true ∧ encode j = some (.uop (word12 0 idx op)) := by
  obtain ⟨rfl, rfl⟩ := noIdx_eq_ok.mp h
  exact ⟨hwf, by rw [hc, uopCode_eq, BitVec.eq_of_toNat_eq hop]⟩

/-- A row of R85 that takes an index. -/
theorem encode_of_withIdx_row (hc : encode i = some (uopCode idx k)) (h : withIdx i = .ok j) :
    j.wf = true ∧ encode j = some (.uop (word12 0 idx op)) := by
  obtain ⟨hwf, rfl⟩ := withIdx_eq_ok.mp h
  exact ⟨hwf, by rw [hc, uopCode_eq, BitVec.eq_of_toNat_eq hop]⟩

end Rows

theorem decodeUop_kexpWord {i : BitVec 6} (h : (Instr.kexpWord i).wf = true) :
    decodeUop (word12 0 i 0x1) = .ok (.kexpWord i) := by
  simp [decodeUop, withIdx, h]

/-- R84 to R86: a micro-operation word decodes to the well-formed instruction whose code it is, and to nothing else. -/
theorem decodeUop_eq_ok {w : BitVec 12} {i : Instr} : decodeUop w = .ok i ↔ i.wf = true ∧ encode i = some (.uop w) := by
  constructor
  · intro h
    rw [← word12_fields w]
    unfold decodeUop at h
    split at h
    case isTrue => cases h
    case isFalse hr =>
      rw [not_not.mp hr]
      split at h
      case h_1 hop => exact encode_of_noIdx_row (k := 0x0) hop rfl rfl h
      case h_2 hop => exact encode_of_withIdx_row (k := 0x1) hop rfl h
      case h_3 hop => exact encode_of_noIdx_row (k := 0x2) hop rfl rfl h
      case h_4 hop => exact encode_of_withIdx_row (k := 0x3) hop rfl h
      case h_5 hop => exact encode_of_noIdx_row (k := 0x4) hop rfl rfl h
      case h_6 hop => exact encode_of_noIdx_row (k := 0x5) hop rfl rfl h
      case h_7 hop => exact encode_of_noIdx_row (k := 0x6) hop rfl rfl h
      case h_8 hop => exact encode_of_noIdx_row (k := 0x7) hop rfl rfl h
      case h_9 hop => exact encode_of_noIdx_row (k := 0x8) hop rfl rfl h
      case h_10 hop => exact encode_of_noIdx_row (k := 0x9) hop rfl rfl h
      case h_11 hop => exact encode_of_noIdx_row (k := 0xA) hop rfl rfl h
      case h_12 => cases h
  · rintro ⟨hwf, hc⟩
    cases i
    case kexpWord => cases hc; exact decodeUop_kexpWord hwf
    case addRoundKey => cases hc; exact decodeUop_addRoundKey (by simpa [Instr.wf] using hwf)
    all_goals cases hc
    all_goals rfl

/-! ### Both formats -/

theorem cmdRsvd_of_decodeCmd {cw : BitVec 32} {i : Instr} (h : decodeCmd cw = .ok i) : cmdRsvd cw = 0 := by
  by_contra hr
  rw [decodeCmd, if_pos hr] at h
  cases h

/-- R83: a command that is no NOP keeps all that its word says. -/
theorem encode_of_decodeCmd {cw : BitVec 32} {i : Instr} (h : decodeCmd cw = .ok i) (hn : i ≠ .nop) :
    encode i = some (.cmd cw) := by
  have word {op : BitVec 4} (hop : (cmdOp cw).toNat = op.toNat) : cmdCode (cmdLen cw) op = .cmd cw := by
    rw [cmdCode_eq, ← BitVec.eq_of_toNat_eq hop, ← cmdRsvd_of_decodeCmd h, word32_fields]
  rw [decodeCmd, if_neg (not_not.mpr (cmdRsvd_of_decodeCmd h))] at h
  split at h
  case h_1 => cases h; exact absurd rfl hn
  case h_2 hop => cases h; exact congrArg some (word (op := 0x1) hop)
  case h_3 hop => cases h; exact congrArg some (word (op := 0x2) hop)
  case h_4 hop => cases h; exact congrArg some (word (op := 0x3) hop)
  case h_5 => cases h

theorem wf_of_decodeCmd {cw : BitVec 32} {i : Instr} (h : decodeCmd cw = .ok i) : i.wf = true ∧ i.hasCode = true := by
  rcases decodeCmd_cases h with rfl | rfl | rfl | rfl <;> exact ⟨rfl, rfl⟩

theorem encode_eq_none_iff (i : Instr) : encode i = none ↔ i.hasCode = false := by
  cases i <;> simp [encode, Instr.hasCode]

/-- Settles O1. A command word is read back field by field; a micro-operation word decodes to an instruction exactly
when it is its code. -/
theorem decodeUndoesEncode : Obligations.DecodeUndoesEncode := by
  refine fun i => ⟨encode_eq_none_iff i, fun hwf c hc => ?_⟩
  cases c with
  | uop w => exact decodeUop_eq_ok.mpr ⟨hwf, hc⟩
  | cmd cw =>
    cases i
    case nop => cases hc; exact decodeCmd_nop 0
    case keyLoad len => cases hc; exact decodeCmd_keyLoad len
    case encrypt len => cases hc; exact decodeCmd_encrypt len
    case decrypt len => cases hc; exact decodeCmd_decrypt len
    all_goals cases hc

/-- Settles O2. What decodes was spelled by the fields of its word, and of these only the `LEN` of a NOP is lost. -/
theorem encodeUndoesDecode : Obligations.EncodeUndoesDecode := by
  intro c i h
  cases c with
  | cmd cw => exact ⟨(wf_of_decodeCmd h).1, (wf_of_decodeCmd h).2, encode_of_decodeCmd h⟩
  | uop w =>
    obtain ⟨hwf, hc⟩ := decodeUop_eq_ok.mp h
    refine ⟨hwf, ?_, fun _ => hc⟩
    by_contra hn
    rw [(encode_eq_none_iff i).mpr (Bool.eq_false_of_not_eq_true hn)] at hc
    cases hc

/-- Settles O4: thirteen closed words, each read by the decoder. -/
theorem writtenWordsDecode : Obligations.WrittenWordsDecode := by
  unfold Obligations.WrittenWordsDecode
  decide

end Sys2Proof.Machine
end

section
/-! PROOFS. Which micro-operation words are refused (R86): those that decode to nothing, since a well-formed micro-operation
may fault but is never refused. -/

namespace Sys2Proof.Machine

open Sys2Proof.Spec

/-! ### Outcomes that are no refusal -/

/-- The outcome is a next state or a fault. -/
def NotRefused (o : Result) : Prop := ∀ r, o ≠ .refused r

theorem notRefused_next (s : State) : NotRefused (.next s) := nofun

theorem notRefused_withW {i : Nat} {s : State} {k : Word → Result} (h : ∀ w, NotRefused (k w)) :
    NotRefused (withW i s k) := by
  unfold withW
  split
  · exact h _
  · exact nofun

theorem notRefused_withSt {s : State} {k : StateArr → Result} (h : ∀ a, NotRefused (k a)) : NotRefused (withSt s k) := by
  unfold withSt
  split
  · exact h _
  · exact nofun

theorem notRefused_mapSt (f : StateArr → StateArr) (s : State) : NotRefused (mapSt f s) :=
  notRefused_withSt fun _ => notRefused_next _

theorem notRefused_execKexpWord {i : BitVec 6} (h : 4 ≤ i.toNat ∧ i.toNat ≤ 43) (s : State) :
    NotRefused (execKexpWord i s) := by
  rw [execKexpWord, if_pos h]
  exact notRefused_withW fun _ => notRefused_withW fun _ => notRefused_next _

theorem notRefused_execAddRoundKey {r : BitVec 6} (h : r.toNat ≤ 10) (s : State) : NotRefused (execAddRoundKey r s) := by
  rw [execAddRoundKey, if_pos h]
  exact notRefused_withSt fun _ => notRefused_withW fun _ => notRefused_withW fun _ => notRefused_withW fun _ =>
    notRefused_withW fun _ => notRefused_next _

/-- A micro-operation with a legal index gets a next state or a fault. -/
theorem notRefused_microOp {w : BitVec 12} {i : Instr} (h : decodeUop w = .ok i) (s : State) : NotRefused (exec i s) := by
  obtain ⟨hwf, hc⟩ := decodeUop_eq_ok.mp h
  cases i
  case kexpWord => exact notRefused_execKexpWord (by simpa [Instr.wf] using hwf) s
  case addRoundKey => exact notRefused_execAddRoundKey (by simpa [Instr.wf] using hwf) s
  case loadKey => exact notRefused_next _
  case loadState => exact notRefused_next _
  case storeState => exact notRefused_withSt fun _ => notRefused_next _
  case subBytes => exact notRefused_mapSt _ s
  case invSubBytes => exact notRefused_mapSt _ s
  case shiftRows => exact notRefused_mapSt _ s
  case invShiftRows => exact notRefused_mapSt _ s
  case mixColumns => exact notRefused_mapSt _ s
  case invMixColumns => exact notRefused_mapSt _ s
  all_goals cases hc

/-! ### Words that decode to nothing -/

theorem noIdx_eq_error {idx : BitVec 6} {i : Instr} : (∃ e, noIdx idx i = .error e) ↔ idx ≠ 0 := by
  unfold noIdx
  split
  case isTrue h => simp [h]
  case isFalse h => exact iff_of_true ⟨_, rfl⟩ h

theorem withIdx_eq_error {i : Instr} : (∃ e, withIdx i = .error e) ↔ i.wf = false := by
  unfold withIdx
  split <;> simp_all

theorem decodeUop_eq_error {rsv2 : BitVec 2} {idx : BitVec 6} {op : BitVec 4} :
    (∃ e, decodeUop (word12 rsv2 idx op) = .error e) ↔
      rsv2 ≠ 0 ∨ 0xB ≤ op.toNat ∨ (op = 0x1 ∧ ¬ (4 ≤ idx.toNat ∧ idx.toNat ≤ 43)) ∨ (op = 0x3 ∧ 10 < idx.toNat) ∨
      (op ≠ 0x1 ∧ op ≠ 0x3 ∧ idx ≠ 0) := by
  by_cases hr : rsv2 = 0
  · subst hr
    rw [decodeUop, uopRsv2_word12, uopIdx_word12, uopOp_word12, if_neg (not_not.mpr rfl)]
    have h1 : op = 0x1 ↔ op.toNat = 1 := BitVec.toNat_inj.symm
    have h3 : op = 0x3 ↔ op.toNat = 3 := BitVec.toNat_inj.symm
    simp only [ne_eq, h1, h3]
    split
    case h_2 hop => rw [withIdx_eq_error]; simp [Instr.wf, hop]
    case h_4 hop => rw [withIdx_eq_error]; simp [Instr.wf, hop]
    case h_12 =>
      simp only [imp_false] at *
      exact iff_of_true ⟨_, rfl⟩ (.inr (.inl (by omega)))
    all_goals rw [noIdx_eq_error]; simp [*]
  · exact iff_of_true ⟨.reservedBits2, by rw [decodeUop, uopRsv2_word12, if_pos hr]⟩ (.inl hr)

/-! ### The step -/

/-- A step on a micro-operation word run alone (log 5). -/
theorem step_microOp {s : State} {w : BitVec 12} (hr : s.ports.rst = false) (hu : s.uopSlot = some w) :
    step s = andWaitHost (runMicroOp w s) := by
  simp [step, State.select, hr, hu]

theorem andWaitHost_refused {o : Result} (h : NotRefused o) : NotRefused (andWaitHost o) := by
  cases o with
  | next s => exact notRefused_next _
  | fault f => exact nofun
  | refused r => exact absurd rfl (h r)

/-- Settles O5. The word of an illegal field decodes to nothing and is refused by name; a word that decodes spells a
micro-operation with a legal index, which is never refused. -/
theorem reservedMicroOpRefused : Obligations.ReservedMicroOpRefused := by
  intro rsv2 idx op s hr hu
  rw [← decodeUop_eq_error, step_microOp hr hu, runMicroOp, decode]
  cases h : decodeUop (word12 rsv2 idx op) with
  | ok i => exact iff_of_false (by simp) (andWaitHost_refused (notRefused_microOp h _) _)
  | error e => exact iff_of_true ⟨e, rfl⟩ rfl

end Sys2Proof.Machine
end

section
/-! PROOFS. What one ADVANCE and one step can do, each as a list of rows (R160, R177). The facts about every step are read
off these lists. -/

namespace Sys2Proof.Machine

open Sys2Proof.Spec

/-! ### ADVANCE -/

/-- R177: the six rows of the table, each with the state it leaves (R164 to R173). -/
inductive AdvanceRow (s : State) (r : BitVec 6) : State → Prop
  | kexpStep {w : Word} : s.phase = .keyexp → 4 ≤ r.toNat → r.toNat ≤ 42 → DerivedWord s r.toNat w →
      AdvanceRow s r { s.writeW r.toNat w with ctr := some (r + 1) }
  | kexpFinal {w : Word} : s.phase = .keyexp → r.toNat = 43 → DerivedWord s 43 w →
      AdvanceRow s r { s.writeW 43 w with ctr := none, phase := .idle, keyValid := true, rsp := some ⟨.ok, none⟩ }
  | encRound {a : StateArr} {ks : Vector Word 4} : s.phase = .enc → 1 ≤ r.toNat → r.toNat ≤ 9 → s.st = some a →
      RoundKeyAt s r.toNat ks →
      AdvanceRow s r { s with st := some (addRoundKey ks (mixColumns (shiftRows (subBytes a)))), ctr := some (r + 1) }
  | encFinal {a : StateArr} {ks : Vector Word 4} : s.phase = .enc → r.toNat = 10 → s.st = some a → RoundKeyAt s 10 ks →
      AdvanceRow s r { s with st := none, ctr := none, phase := .idle,
                              rsp := some ⟨.ok, some (stateToBlock (addRoundKey ks (shiftRows (subBytes a))))⟩ }
  | decRound {a : StateArr} {ks : Vector Word 4} : s.phase = .dec → 1 ≤ r.toNat → r.toNat ≤ 9 → s.st = some a →
      RoundKeyAt s r.toNat ks →
      AdvanceRow s r { s with st := some (invMixColumns (addRoundKey ks (invSubBytes (invShiftRows a)))), ctr := some (r - 1) }
  | decFinal {a : StateArr} {ks : Vector Word 4} : s.phase = .dec → r.toNat = 0 → s.st = some a → RoundKeyAt s 0 ks →
      AdvanceRow s r { s with st := none, ctr := none, phase := .idle,
                              rsp := some ⟨.ok, some (stateToBlock (addRoundKey ks (invSubBytes (invShiftRows a))))⟩ }

section Rows

variable {s : State} {r : BitVec 6}

theorem advance_encRound (hp : s.phase = .enc) (hc : s.ctr = some r) (h1 : 1 ≤ r.toNat) (h9 : r.toNat ≤ 9) :
    advance s = encRound r s := by
  rw [advance_at hc, hp]
  exact if_pos ⟨h1, h9⟩

theorem advance_encFinal (hp : s.phase = .enc) (hc : s.ctr = some 10) : advance s = encFinal s := by
  rw [advance_at hc, hp]
  rfl

theorem advance_decRound (hp : s.phase = .dec) (hc : s.ctr = some r) (h1 : 1 ≤ r.toNat) (h9 : r.toNat ≤ 9) :
    advance s = decRound r s := by
  rw [advance_at hc, hp]
  exact if_pos ⟨h1, h9⟩

theorem advance_decFinal (hp : s.phase = .dec) (hc : s.ctr = some 0) : advance s = decFinal s := by
  rw [advance_at hc, hp]
  rfl

/-- ADVANCE answers a next state exactly by a row of the table. -/
theorem advance_eq_next {t : State} (hc : s.ctr = some r) : advance s = .next t ↔ AdvanceRow s r t := by
  constructor
  · intro h
    rcases advance_cases hc h with ⟨hp, h4, h42, e⟩ | ⟨hp, h43, e⟩ | ⟨hp, h1, h9, e⟩ | ⟨hp, h10, e⟩ | ⟨hp, h1, h9, e⟩ |
      ⟨hp, h0, e⟩
    · obtain ⟨-, -, w, hw, rfl⟩ := kexpStep_eq_next.mp e
      exact .kexpStep hp h4 h42 hw
    · obtain ⟨w, hw, rfl⟩ := kexpFinal_eq_next.mp e
      exact .kexpFinal hp h43 hw
    · obtain ⟨-, a, ks, ha, hks, rfl⟩ := encRound_eq_next.mp e
      exact .encRound hp h1 h9 ha hks
    · obtain ⟨a, ks, ha, hks, rfl⟩ := encFinal_eq_next.mp e
      exact .encFinal hp h10 ha hks
    · obtain ⟨-, a, ks, ha, hks, rfl⟩ := decRound_eq_next.mp e
      exact .decRound hp h1 h9 ha hks
    · obtain ⟨a, ks, ha, hks, rfl⟩ := decFinal_eq_next.mp e
      exact .decFinal hp h0 ha hks
  · intro h
    cases h with
    | kexpStep hp h4 h42 hw =>
      rw [advance_kexpStep hp hc h4 h42]
      exact kexpStep_eq_next.mpr ⟨h4, by omega, _, hw, rfl⟩
    | kexpFinal hp h43 hw =>
      rw [advance_kexpFinal hp (hc.trans (congrArg some (BitVec.eq_of_toNat_eq h43)))]
      exact kexpFinal_eq_next.mpr ⟨_, hw, rfl⟩
    | encRound hp h1 h9 ha hks =>
      rw [advance_encRound hp hc h1 h9]
      exact encRound_eq_next.mpr ⟨by omega, _, _, ha, hks, rfl⟩
    | encFinal hp h10 ha hks =>
      rw [advance_encFinal hp (hc.trans (congrArg some (BitVec.eq_of_toNat_eq h10)))]
      exact encFinal_eq_next.mpr ⟨_, _, ha, hks, rfl⟩
    | decRound hp h1 h9 ha hks =>
      rw [advance_decRound hp hc h1 h9]
      exact decRound_eq_next.mpr ⟨by omega, _, _, ha, hks, rfl⟩
    | decFinal hp h0 ha hks =>
      rw [advance_decFinal hp (hc.trans (congrArg some (BitVec.eq_of_toNat_eq h0)))]
      exact decFinal_eq_next.mpr ⟨_, _, ha, hks, rfl⟩

end Rows

/-! ### Commands offered in IDLE -/

section Offered

variable {s t : State} {cw : BitVec 32} {i : Instr}

theorem step_eq_of_offered (h : Offered s cw) : step s = andPopHost (acceptCommand cw s) := by
  obtain ⟨⟨hr, hu⟩, hp, hv, rfl⟩ := h
  exact step_offered hr hu hp hv

/-- R160: a step on an offered word that decodes is its instruction, and the offer is used up. -/
theorem step_of_exec (h : Offered s cw) (hd : decodeCmd cw = .ok i) (he : exec i s = .next t) :
    step s = .next { t with host := t.host.tail } := by
  rw [step_eq_of_offered h, acceptCommand, decode, hd]
  simp only [he]
  rfl

/-- R205: a step on an offered word that does not decode. -/
theorem step_of_illegal {e : DecodeError} (h : Offered s cw) (hd : decodeCmd cw = .error e) :
    step s = .next { s with rsp := some ⟨.illegalCommand, none⟩, host := s.host.tail } := by
  rw [step_eq_of_offered h, acceptCommand, decode, hd]
  simp only [illegalCommand, accept_idle h.2.1]
  rfl

end Offered

/-! ### One step -/

/-- R160: what one step of the core can do, each with the state it leaves. -/
inductive StepRow (s : State) : State → Prop
  | reset : s.ports.rst = true → StepRow s (resetStep s)
  | advance {r : BitVec 6} {u : State} : s.ports.rst = false → s.phase ≠ .idle → s.ctr = some r → AdvanceRow s r u →
      StepRow s u.waitHost
  | respond (e : Status) : s.ports.rst = false → s.phase = .idle →
      StepRow s { s with rsp := some ⟨e, none⟩, host := s.host.tail }
  | keyLoad : s.ports.rst = false → s.phase = .idle → s.ports.cmdValid = true → s.ports.cmdWord = word32 16 0 0x1 →
      StepRow s { s with keyValid := false, W := discardWords (loadKeyWords s.din s.W), ctr := some 4, phase := .keyexp,
                         rsp := none, host := s.host.tail }
  | encrypt {ks : Vector Word 4} : s.ports.rst = false → s.phase = .idle → s.keyValid = true → RoundKeyAt s 0 ks →
      StepRow s { s with st := some (addRoundKey ks (blockToState s.din)), ctr := some 1, phase := .enc, rsp := none,
                         host := s.host.tail }
  | decrypt {ks : Vector Word 4} : s.ports.rst = false → s.phase = .idle → s.keyValid = true → RoundKeyAt s 10 ks →
      StepRow s { s with st := some (addRoundKey ks (blockToState s.din)), ctr := some 9, phase := .dec, rsp := none,
                         host := s.host.tail }
  | wait : s.ports.rst = false → s.phase = .idle → s.ports.cmdValid = false → StepRow s { s with host := s.host.tail }

/-- A step is by one of the rows. -/
theorem stepRow_of_step {s t : State} (hu : s.uopSlot = none) (h : step s = .next t) : StepRow s t := by
  rcases step_cases hu h with ⟨hr, rfl⟩ | ⟨hr, hp, u, hu, rfl⟩ | ⟨hr, hp, hv, i, u, hd, he, rfl⟩ | ⟨hr, hp, -, -, rfl⟩ |
    ⟨hr, hp, hv, rfl⟩
  · exact .reset hr
  · obtain ⟨r, hc⟩ := advance_ctr hu
    exact .advance hr hp hc ((advance_eq_next hc).mp hu)
  · rcases exec_command_cases hp hd he with ⟨e, rfl⟩ | ⟨rfl, e⟩ | ⟨rfl, hk, e⟩ | ⟨rfl, hk, e⟩
    · exact .respond e hr hp
    · rw [keyLoadStart_eq, next_eq_next] at e
      subst e
      exact .keyLoad hr hp hv (Code.cmd.inj (Option.some.inj (encode_of_decodeCmd hd nofun))).symm
    · obtain ⟨ks, hks, rfl⟩ := encStart_eq_next.mp e
      exact .encrypt hr hp hk (hks.of_W rfl)
    · obtain ⟨ks, hks, rfl⟩ := decStart_eq_next.mp e
      exact .decrypt hr hp hk (hks.of_W rfl)
  · exact .respond .illegalCommand hr hp
  · exact .wait hr hp hv

end Sys2Proof.Machine
end

section
/-! PROOFS. The invariants of R37: what each phase asks for, that every row of a step keeps them, and that a state that
meets them never stops. -/

namespace Sys2Proof.Machine

/-! ### What the invariants ask for in each phase -/

section Intro

variable {s : State}

theorem inv_of_idle (hp : s.phase = .idle) (hc : s.ctr = none) (hst : s.st = none)
    (hW : s.keyValid = true → ∀ i : Fin 44, (s.W[i]).isSome = true) (ho : s.out = none) (hu : s.uopSlot = none) : Inv s where
  idle_iff := iff_of_true hp hc
  idle_st _ := hst
  keyexp_st _ := hst
  cipher_ready := by simp [hp]
  key_complete := hW
  keyexp_partial := by simp [hp]
  busy_rsp h := absurd hp h
  keyexp_range := by simp [hp]
  enc_range := by simp [hp]
  dec_range := by simp [hp]
  no_out := ho
  no_uop := hu

theorem inv_of_keyexp {i : BitVec 6} (hp : s.phase = .keyexp) (hc : s.ctr = some i) (hst : s.st = none)
    (hv : s.keyValid = false) (hW : ∀ k : Fin 44, (s.W[k]).isSome = true ↔ k.val < i.toNat)
    (hi : 4 ≤ i.toNat ∧ i.toNat ≤ 43) (hr : s.rsp = none) (ho : s.out = none) (hu : s.uopSlot = none) : Inv s where
  idle_iff := by simp [hp, hc]
  idle_st _ := hst
  keyexp_st _ := hst
  cipher_ready := by simp [hp]
  key_complete h := absurd (hv.symm.trans h) nofun
  keyexp_partial := by simpa [hc] using fun _ => ⟨hv, hW⟩
  busy_rsp _ := hr
  keyexp_range := by simpa [hc] using fun _ => hi
  enc_range := by simp [hp]
  dec_range := by simp [hp]
  no_out := ho
  no_uop := hu

/-- R25: the counter values of the two ciphers. -/
def CipherCounter (p : Phase) (r : BitVec 6) : Prop :=
  (p = .enc ∧ 1 ≤ r.toNat ∧ r.toNat ≤ 10) ∨ (p = .dec ∧ r.toNat ≤ 9)

theorem inv_of_cipher {r : BitVec 6} (hp : CipherCounter s.phase r) (hc : s.ctr = some r) (hst : s.st.isSome = true)
    (hv : s.keyValid = true) (hW : ∀ i : Fin 44, (s.W[i]).isSome = true) (hr : s.rsp = none) (ho : s.out = none)
    (hu : s.uopSlot = none) : Inv s where
  idle_iff := by rcases hp with ⟨hp, -⟩ | ⟨hp, -⟩ <;> simp [hp, hc]
  idle_st h := by rcases hp with ⟨hp, -⟩ | ⟨hp, -⟩ <;> simp [hp] at h
  keyexp_st h := by rcases hp with ⟨hp, -⟩ | ⟨hp, -⟩ <;> simp [hp] at h
  cipher_ready _ := ⟨hv, hst⟩
  key_complete _ := hW
  keyexp_partial h := by rcases hp with ⟨hp, -⟩ | ⟨hp, -⟩ <;> simp [hp] at h
  busy_rsp _ := hr
  keyexp_range h := by rcases hp with ⟨hp, -⟩ | ⟨hp, -⟩ <;> simp [hp] at h
  enc_range h i hi := by
    obtain rfl : r = i := Option.some.inj (hc.symm.trans hi)
    rcases hp with ⟨-, hr⟩ | ⟨hp, -⟩
    · exact hr
    · simp [hp] at h
  dec_range h i hi := by
    obtain rfl : r = i := Option.some.inj (hc.symm.trans hi)
    rcases hp with ⟨hp, -⟩ | ⟨-, hr⟩
    · simp [hp] at h
    · exact hr
  no_out := ho
  no_uop := hu

end Intro

/-! ### Every step keeps them -/

section Steps

variable {s t : State} {r : BitVec 6}

theorem inv_resetStep (s : State) : Inv (resetStep s) :=
  inv_of_idle rfl rfl rfl nofun rfl rfl

theorem Inv.complete_of_cipher (hi : Inv s) (hp : s.phase = .enc ∨ s.phase = .dec) :
    s.keyValid = true ∧ ∀ i : Fin 44, (s.W[i]).isSome = true :=
  ⟨(hi.cipher_ready hp).1, hi.key_complete (hi.cipher_ready hp).1⟩

/-- The round steps: another array, and the counter moved within its range. -/
theorem Inv.round (hi : Inv s) (hp : s.phase = .enc ∨ s.phase = .dec) {r : BitVec 6} (hr : CipherCounter s.phase r)
    (a : StateArr) : Inv { s with st := some a, ctr := some r } :=
  have hk := hi.complete_of_cipher hp
  inv_of_cipher hr rfl rfl hk.1 hk.2 (hi.busy_rsp (by rcases hp with hp | hp <;> simp [hp])) hi.no_out hi.no_uop

/-- The final steps of the ciphers. -/
theorem Inv.finish (hi : Inv s) (hp : s.phase = .enc ∨ s.phase = .dec) (q : Option Response) :
    Inv { s with st := none, ctr := none, phase := .idle, rsp := q } :=
  inv_of_idle rfl rfl rfl (fun _ => (hi.complete_of_cipher hp).2) hi.no_out hi.no_uop

/-- The accept steps of the ciphers. -/
theorem Inv.startCipher (hi : Inv s) (hk : s.keyValid = true) {p : Phase} {r : BitVec 6} (hr : CipherCounter p r)
    (a : StateArr) : Inv { s with st := some a, ctr := some r, phase := p, rsp := none } :=
  inv_of_cipher hr rfl rfl hk (hi.key_complete hk) rfl hi.no_out hi.no_uop

theorem Inv.startKeyLoad (hi : Inv s) (hp : s.phase = .idle) (d : Block) :
    Inv { s with keyValid := false, W := discardWords (loadKeyWords d s.W), ctr := some 4, phase := .keyexp, rsp := none } := by
  refine inv_of_keyexp rfl rfl (hi.idle_st hp) rfl (fun k => ?_) (by decide) rfl hi.no_out hi.no_uop
  rw [getElem_discardWords, getElem_loadKeyWords]
  by_cases hk : k.val < 4 <;> simp [hk]

/-- Every row of ADVANCE keeps the invariants. -/
theorem Inv.of_advance (hi : Inv s) (hc : s.ctr = some r) (h : AdvanceRow s r t) : Inv t := by
  cases h with
  | kexpStep hp h4 h42 hw =>
    obtain ⟨hv, hW⟩ := hi.keyexp_partial hp r hc
    have hr : (r + 1).toNat = r.toNat + 1 := ctr_succ_toNat (by omega)
    refine inv_of_keyexp hp rfl (hi.keyexp_st hp) hv (fun k => ?_) (by omega) (hi.busy_rsp (by simp [hp])) hi.no_out hi.no_uop
    rw [State.writeW_W, isSome_setW, hW, hr]
    omega
  | kexpFinal hp h43 hw =>
    obtain ⟨-, hW⟩ := hi.keyexp_partial hp r hc
    refine inv_of_idle rfl rfl (hi.keyexp_st hp) (fun _ k => ?_) hi.no_out hi.no_uop
    rw [State.writeW_W, isSome_setW, hW]
    omega
  | encRound hp h1 h9 =>
    have hr : (r + 1).toNat = r.toNat + 1 := ctr_succ_toNat (by omega)
    exact hi.round (.inl hp) (.inl ⟨hp, by omega⟩) _
  | encFinal hp => exact hi.finish (.inl hp) _
  | decRound hp h1 h9 =>
    have hr : (r - 1).toNat = r.toNat - 1 := ctr_pred_toNat h1
    exact hi.round (.inr hp) (.inr ⟨hp, by omega⟩) _
  | decFinal hp => exact hi.finish (.inr hp) _

/-- Every row of a step keeps the invariants. -/
theorem Inv.of_row (hi : Inv s) (h : StepRow s t) : Inv t := by
  cases h with
  | reset => exact inv_resetStep s
  | advance _ _ hc hrow => exact (hi.of_advance hc hrow).waitHost
  | respond e _ hp => exact (hi.with_rsp hp (some ⟨e, none⟩)).popHost
  | keyLoad _ hp => exact (hi.startKeyLoad hp s.din).popHost
  | encrypt _ _ hk => exact (hi.startCipher hk (.inl ⟨rfl, by decide⟩) _).popHost
  | decrypt _ _ hk => exact (hi.startCipher hk (.inr ⟨rfl, by decide⟩) _).popHost
  | wait => exact hi.popHost

/-- Settles O48, row by row of what a step can do. -/
theorem stepKeepsInvariants : Obligations.StepKeepsInvariants :=
  fun _ _ hi h => hi.of_row (stepRow_of_step hi.no_uop h)

end Steps

/-! ### No state that meets them stops -/

section Progress

variable {s : State} {r : BitVec 6}

theorem Inv.roundKey (hi : Inv s) (hk : s.keyValid = true) (h : r.toNat ≤ 10) : ∃ ks, RoundKeyAt s r.toNat ks :=
  RoundKeyAt.exists_of (n := 44) (fun k _ => hi.key_complete hk k) (by omega) le_rfl

/-- R207: a command in flight always has a row of R177. -/
theorem Inv.advance_progress (hi : Inv s) (hc : s.ctr = some r) : ∃ t, AdvanceRow s r t := by
  have key (h10 : r.toNat ≤ 10) (hp : s.phase = .enc ∨ s.phase = .dec) :
      ∃ a ks, s.st = some a ∧ RoundKeyAt s r.toNat ks := by
    obtain ⟨hk, hst⟩ := hi.cipher_ready hp
    obtain ⟨a, ha⟩ := Option.isSome_iff_exists.mp hst
    obtain ⟨ks, hks⟩ := hi.roundKey hk h10
    exact ⟨a, ks, ha, hks⟩
  cases hp : s.phase with
  | idle => exact absurd hp (hi.busy_of_ctr hc)
  | keyexp =>
    obtain ⟨h4, h43⟩ := hi.keyexp_range hp r hc
    obtain ⟨w, hw⟩ := DerivedWord.exists_of (fun k hk => ((hi.keyexp_partial hp r hc).2 k).mpr hk) h4 h43
    rcases Nat.lt_or_eq_of_le h43 with h | h
    · exact ⟨_, .kexpStep hp h4 (by omega) hw⟩
    · exact ⟨_, .kexpFinal hp h (h ▸ hw)⟩
  | enc =>
    obtain ⟨h1, h10⟩ := hi.enc_range hp r hc
    obtain ⟨a, ks, ha, hks⟩ := key h10 (.inl hp)
    rcases Nat.lt_or_eq_of_le h10 with h | h
    · exact ⟨_, .encRound hp h1 (by omega) ha hks⟩
    · exact ⟨_, .encFinal hp h ha (h ▸ hks)⟩
  | dec =>
    have h9 := hi.dec_range hp r hc
    obtain ⟨a, ks, ha, hks⟩ := key (by omega) (.inr hp)
    rcases Nat.eq_zero_or_pos r.toNat with h | h
    · exact ⟨_, .decFinal hp h ha (h ▸ hks)⟩
    · exact ⟨_, .decRound hp h h9 ha hks⟩

/-- An offered command that decodes is never stopped: a cipher starts only with a key, and then its round key is there. -/
theorem Inv.exec_progress (hi : Inv s) {cw : BitVec 32} {i : Instr} (hd : decodeCmd cw = .ok i) :
    ∃ t, exec i s = .next t := by
  rcases decodeCmd_cases hd with rfl | rfl | rfl | rfl <;> simp only [exec]
  · exact ⟨_, execNop_eq s⟩
  · rw [execKeyLoad_eq, keyLoadStart_eq]
    split_ifs <;> exact ⟨_, rfl⟩
  · rw [execEncrypt_eq]
    split_ifs with _ hk
    · exact ⟨_, rfl⟩
    · exact ⟨_, rfl⟩
    · exact ⟨_, rfl⟩
    · obtain ⟨ks, hks⟩ := hi.roundKey (r := 0) (by simpa using hk) (by decide)
      exact ⟨_, encStart_eq_next.mpr ⟨ks, hks.of_W rfl, rfl⟩⟩
  · rw [execDecrypt_eq]
    split_ifs with _ hk
    · exact ⟨_, rfl⟩
    · exact ⟨_, rfl⟩
    · exact ⟨_, rfl⟩
    · obtain ⟨ks, hks⟩ := hi.roundKey (r := 10) (by simpa using hk) (by decide)
      exact ⟨_, decStart_eq_next.mpr ⟨ks, hks.of_W rfl, rfl⟩⟩

theorem step_wait (hr : s.ports.rst = false) (hu : s.uopSlot = none) (hp : s.phase = .idle)
    (hv : s.ports.cmdValid = false) : step s = .next s.popHost := by
  rw [step, select_of_no_uop hu]
  simp [hr, hp, hv]

/-- R207, R208: from a state that meets the invariants a step answers a next state. -/
theorem Inv.progress (hi : Inv s) : ∃ t, step s = .next t := by
  cases hr : s.ports.rst with
  | true => exact ⟨_, step_reset hr⟩
  | false =>
    by_cases hp : s.phase = .idle
    · cases hv : s.ports.cmdValid with
      | false => exact ⟨_, step_wait hr hi.no_uop hp hv⟩
      | true =>
        have ho : Spec.Offered s s.ports.cmdWord := ⟨⟨hr, hi.no_uop⟩, hp, hv, rfl⟩
        cases hd : decodeCmd s.ports.cmdWord with
        | error e => exact ⟨_, step_of_illegal ho hd⟩
        | ok i =>
          obtain ⟨t, ht⟩ := hi.exec_progress hd
          exact ⟨_, step_of_exec ho hd ht⟩
    · obtain ⟨r, hc⟩ := hi.ctr_of_busy hp
      obtain ⟨t, ht⟩ := hi.advance_progress hc
      exact ⟨_, step_of_advance ⟨hr, hi.no_uop⟩ hp ((advance_eq_next hc).mpr ht)⟩

theorem inv_reset (h : List HostDrive) : Inv { State.reset with host := h } :=
  (inv_resetStep State.reset).with_host h

/-- A property that holds at reset and that every step keeps holds of every reachable state. -/
theorem Reachable.inv (h : Reachable s) : Inv s := by
  induction h with
  | reset h => exact inv_reset h
  | step _ hstep ih => exact stepKeepsInvariants _ _ ih hstep

/-- Settles O49. Progress from the invariants, which every reachable state meets. -/
theorem reachableNeverStops : Obligations.ReachableNeverStops :=
  ⟨fun _ hi => hi.progress, fun _ h => ⟨h.inv, h.inv.progress⟩⟩

end Progress

end Sys2Proof.Machine
end

section
/-! PROOFS. The key schedule, the response's data and the loaded key over one step (R22, R27, R57, R236). -/

namespace Sys2Proof.Machine

open Sys2Proof.Spec

/-! ### The key schedule (R22) -/

section Schedule

variable {s t : State} {key : Block} {n : Nat} {r : BitVec 6}

/-- The word that KEXP_WORD derives from a schedule so far is its next word (R113). -/
theorem ScheduleUpTo.writeW {w : Word} (h : ScheduleUpTo key n s.W) (h4 : 4 ≤ n) (hw : DerivedWord s n w) :
    ScheduleUpTo key (n + 1) (s.writeW n w).W := by
  obtain ⟨hkey, hderived⟩ := h
  have old {i : Nat} (hi : i < n) : (s.writeW n w).W[i]? = s.W[i]? := by
    rw [State.writeW_W, getElem?_setW, if_neg (by omega)]
  refine ⟨fun i _ hi => by rw [old (by omega), hkey i (by omega) hi], fun i hi hn h44 => ?_⟩
  rw [old (show i - 4 < n by omega), old (show i - 1 < n by omega)]
  rcases Nat.lt_succ_iff_lt_or_eq.mp hn with hlt | rfl
  · rw [old hlt]
    exact hderived i hi hlt h44
  · obtain ⟨u, p, hu, hp, rfl⟩ := hw
    exact ⟨p, u, hp, hu, by rw [State.writeW_W, getElem?_setW, if_pos ⟨rfl, h44⟩]⟩

/-- R163: the four words of the key are the schedule so far. -/
theorem scheduleUpTo_loaded (key : Block) (W : KeyStore) : ScheduleUpTo key 4 (discardWords (loadKeyWords key W)) := by
  refine ⟨fun i _ hi => ?_, fun i h4 hi => absurd hi (by omega)⟩
  rw [getElem?_discardWords, if_neg (by omega), getElem?_loadKeyWords, if_pos hi]

/-- Outside KEYEXP only `W` and `key_valid` matter. -/
theorem ScheduleInv.of_key_eq (h : ScheduleInv s) (hW : t.W = s.W) (hk : t.keyValid = s.keyValid) (hp : t.phase ≠ .keyexp) :
    ScheduleInv t :=
  ⟨fun hv => by rw [hW]; exact h.1 (hk ▸ hv), fun he => absurd he hp⟩

theorem ScheduleInv.of_advance (h : ScheduleInv s) (hi : Inv s) (hc : s.ctr = some r) (hrow : AdvanceRow s r t) :
    ScheduleInv t := by
  cases hrow with
  | kexpStep hp h4 h42 hw =>
    obtain ⟨key, hkey⟩ := h.2 hp r hc
    refine ⟨fun hv => absurd ((hi.keyexp_partial hp r hc).1.symm.trans hv) nofun, fun _ i hi => ⟨key, ?_⟩⟩
    cases hi
    rw [ctr_succ_toNat (by omega)]
    exact hkey.writeW h4 hw
  | kexpFinal hp h43 hw =>
    obtain ⟨key, hkey⟩ := h.2 hp r hc
    rw [h43] at hkey
    exact ⟨fun _ => ⟨key, hkey.writeW (by decide) hw⟩, nofun⟩
  | encRound hp => exact h.of_key_eq rfl rfl (by simp [hp])
  | encFinal => exact h.of_key_eq rfl rfl nofun
  | decRound hp => exact h.of_key_eq rfl rfl (by simp [hp])
  | decFinal => exact h.of_key_eq rfl rfl nofun

/-- Settles O50. A new schedule begins with the key's words, each KEXP step adds the next word, and no other row touches
`W` but reset, which leaves no key. -/
theorem stepKeepsSchedule : Obligations.StepKeepsSchedule := by
  intro s t hi h hstep
  cases stepRow_of_step hi.no_uop hstep with
  | reset => exact ⟨nofun, nofun⟩
  | advance _ _ hc hrow =>
    have hu := h.of_advance hi hc hrow
    rw [State.waitHost_eq]
    exact hu
  | respond => exact h
  | keyLoad =>
    refine ⟨nofun, fun _ i hi => ⟨s.din, ?_⟩⟩
    cases hi
    exact scheduleUpTo_loaded s.din s.W
  | encrypt => exact h.of_key_eq rfl rfl nofun
  | decrypt => exact h.of_key_eq rfl rfl nofun
  | wait => exact h

end Schedule

/-! ### The response (R27, R207) -/

section Response

variable {s t : State} {r : BitVec 6}

/-- R207: a step of a command in flight answers nothing or OK. -/
theorem AdvanceRow.status_ok (h : AdvanceRow s r t) (hs : s.rsp = none) : ∀ q, t.rsp = some q → q.status = .ok := by
  cases h <;> rintro q hq
  case kexpStep | encRound | decRound => exact absurd (hs.symm.trans hq) nofun
  all_goals cases hq; rfl

/-- Settles O51. A response with data comes from the final step of a cipher, with OK; any other is without data or as it was. -/
theorem stepKeepsResponseData : Obligations.StepKeepsResponseData := by
  intro s t hi h hstep
  cases stepRow_of_step hi.no_uop hstep with
  | reset => exact nofun
  | advance _ hp _ hrow => exact fun q hq _ => hrow.status_ok (hi.busy_rsp hp) q (by rwa [State.waitHost_rsp] at hq)
  | respond e => rintro q hq hd; cases hq; cases hd
  | keyLoad => exact nofun
  | encrypt => exact nofun
  | decrypt => exact nofun
  | wait => exact h

/-- Settles O36. A row that starts a sequence clears `rsp`, so an error is the row that answers at once; and no row of
ADVANCE answers an error. -/
theorem errorsChangeOnlyResponse : Obligations.ErrorsChangeOnlyResponse := by
  constructor
  · rintro s t cw q ⟨⟨hr, hu⟩, hp, hv, -⟩ hstep hq hne
    cases stepRow_of_step hu hstep with
    | reset h => exact absurd (hr.symm.trans h) nofun
    | advance _ hbusy => exact absurd hp hbusy
    | respond e => cases hq; exact ⟨rfl, rfl⟩
    | keyLoad => cases hq
    | encrypt => cases hq
    | decrypt => cases hq
    | wait _ _ hw => exact absurd (hv.symm.trans hw) nofun
  · intro s t q hi hbusy hstep hq
    cases stepRow_of_step hi.no_uop hstep with
    | reset => cases hq
    | advance _ _ _ hrow => exact hrow.status_ok (hi.busy_rsp hbusy) q (by rwa [State.waitHost_rsp] at hq)
    | respond _ _ hp => exact absurd hp hbusy
    | keyLoad => cases hq
    | encrypt => cases hq
    | decrypt => cases hq
    | wait _ hp => exact absurd hp hbusy

end Response

/-! ### The loaded key (R57, R236) -/

/-- Only a KEXP step writes `W` or `key_valid`. -/
theorem AdvanceRow.key_eq {s t : State} {r : BitVec 6} (h : AdvanceRow s r t) (hp : s.phase ≠ .keyexp) :
    t.W = s.W ∧ t.keyValid = s.keyValid := by
  cases h
  case kexpStep h _ _ _ => exact absurd h hp
  case kexpFinal h _ _ => exact absurd h hp
  all_goals exact ⟨rfl, rfl⟩

/-- Settles O52. Of the rows of a step the three named ones alone write `W` or `key_valid`. -/
theorem keyStaysLoaded : Obligations.KeyStaysLoaded := by
  intro s t hi hstep hr hp hload
  cases stepRow_of_step hi.no_uop hstep with
  | reset h => exact absurd (hr.symm.trans h) nofun
  | advance _ _ _ hrow =>
    rw [State.waitHost_W, State.waitHost_keyValid]
    exact hrow.key_eq hp
  | respond => exact ⟨rfl, rfl⟩
  | keyLoad _ hidle hv hw => exact absurd ⟨hidle, hv, hw⟩ hload
  | encrypt => exact ⟨rfl, rfl⟩
  | decrypt => exact ⟨rfl, rfl⟩
  | wait => exact ⟨rfl, rfl⟩

/-- Settles O47. After reset the core is IDLE without key and without response. -/
theorem invariantsHoldAtReset : Obligations.InvariantsHoldAtReset :=
  fun h => ⟨inv_reset h, nofun, nofun, nofun⟩

/-- Settles O44. RESET goes before every other transition (R160). -/
theorem resetClearsEverything : Obligations.ResetClearsEverything :=
  fun s hr => ⟨resetStep s, step_reset hr, State.reset_W_getElem, rfl, rfl, rfl, rfl, rfl, rfl, rfl, rfl⟩

end Sys2Proof.Machine
end

section
/-! PROOFS. Commands: the answers that change nothing but `rsp` (R161, R202 to R205), what a busy core does with an offer
(R237), and a step as the decoded instruction (R160). -/

namespace Sys2Proof.Machine

open Sys2Proof.Spec

/-! ### Answers given at once -/

section Answers

variable {s : State} {len : BitVec 16}

theorem exec_nop_idle (hp : s.phase = .idle) : exec .nop s = .next { s with rsp := some ⟨.ok, none⟩ } := by
  rw [exec, execNop_eq, if_pos hp]

theorem exec_keyLoad_badLength (hp : s.phase = .idle) (hl : len ≠ 16) :
    exec (.keyLoad len) s = .next { s with rsp := some ⟨.invalidKeyLength, none⟩ } := by
  rw [exec, execKeyLoad_eq, if_neg (not_not.mpr hp), if_pos hl]

theorem exec_encrypt_noKey (hp : s.phase = .idle) (hk : s.keyValid = false) :
    exec (.encrypt len) s = .next { s with rsp := some ⟨.noKey, none⟩ } := by
  rw [exec, execEncrypt_eq, if_neg (not_not.mpr hp), if_pos hk]

theorem exec_decrypt_noKey (hp : s.phase = .idle) (hk : s.keyValid = false) :
    exec (.decrypt len) s = .next { s with rsp := some ⟨.noKey, none⟩ } := by
  rw [exec, execDecrypt_eq, if_neg (not_not.mpr hp), if_pos hk]

theorem exec_encrypt_badLength (hp : s.phase = .idle) (hk : s.keyValid = true) (hl : len ≠ 16) :
    exec (.encrypt len) s = .next { s with rsp := some ⟨.invalidBlockLength, none⟩ } := by
  rw [exec, execEncrypt_eq, if_neg (not_not.mpr hp), if_neg (by simp [hk]), if_pos hl]

theorem exec_decrypt_badLength (hp : s.phase = .idle) (hk : s.keyValid = true) (hl : len ≠ 16) :
    exec (.decrypt len) s = .next { s with rsp := some ⟨.invalidBlockLength, none⟩ } := by
  rw [exec, execDecrypt_eq, if_neg (not_not.mpr hp), if_neg (by simp [hk]), if_pos hl]

/-- Settles O28. A NOP has no length to check, and the decoder reads none (R77). -/
theorem nopAnswersOk : Obligations.NopAnswersOk :=
  ⟨fun _ => exec_nop_idle, fun _ len ho => step_of_exec ho (decodeCmd_nop len) (exec_nop_idle ho.2.1)⟩

/-- Settles O30. The length is checked before anything is touched; with `LEN = 16` the step is KEYLOAD_START. -/
theorem keyLoadBadLengthFails : Obligations.KeyLoadBadLengthFails :=
  ⟨fun _ _ => exec_keyLoad_badLength,
    fun _ len hl ho => step_of_exec ho (decodeCmd_keyLoad len) (exec_keyLoad_badLength ho.2.1 hl),
    by decide, by decide, fun _ ho => ⟨_, step_of_exec ho (decodeCmd_keyLoad 16)
      ((exec_keyLoad_valid ho.2.1).trans (keyLoadStart_eq _)), rfl, rfl⟩⟩

/-- Settles O33. Of the two errors of a cipher command NO_KEY is checked first (R206), so `LEN` does not matter. -/
theorem cipherWithoutKeyFails : Obligations.CipherWithoutKeyFails := by
  refine fun s len hk => ⟨fun hp => ⟨exec_encrypt_noKey hp hk, exec_decrypt_noKey hp hk⟩, ?_⟩
  rintro (ho | ho)
  · exact step_of_exec ho (decodeCmd_encrypt len) (exec_encrypt_noKey ho.2.1 hk)
  · exact step_of_exec ho (decodeCmd_decrypt len) (exec_decrypt_noKey ho.2.1 hk)

/-- Settles O34. With a key the length is what is left to check. -/
theorem cipherBadLengthFails : Obligations.CipherBadLengthFails := by
  refine fun s len hk hl => ⟨fun hp => ⟨exec_encrypt_badLength hp hk hl, exec_decrypt_badLength hp hk hl⟩, ?_⟩
  rintro (ho | ho)
  · exact step_of_exec ho (decodeCmd_encrypt len) (exec_encrypt_badLength ho.2.1 hk hl)
  · exact step_of_exec ho (decodeCmd_decrypt len) (exec_decrypt_badLength ho.2.1 hk hl)

/-- R78, R79: a word with a reserved field spells no command. -/
theorem decodeCmd_of_reserved {rsvd : BitVec 12} {op : BitVec 4} (len : BitVec 16) (h : rsvd ≠ 0 ∨ 4 ≤ op.toNat) :
    ∃ e, decodeCmd (word32 len rsvd op) = .error e := by
  by_cases hr : rsvd = 0
  · subst hr
    exact ⟨_, decodeCmd_of_op len (h.resolve_left (not_not.mpr rfl))⟩
  · exact ⟨_, decodeCmd_of_rsvd len hr⟩

/-- Settles O35. Neither `LEN` nor `key_valid` is looked at before the decoder turns the word away (R206). -/
theorem illegalCommandAnswered : Obligations.IllegalCommandAnswered := by
  intro s len rsvd op ho h
  obtain ⟨e, he⟩ := decodeCmd_of_reserved len h
  exact step_of_illegal ho he

end Answers

/-! ### A busy core (R26, R237) -/

section Busy

variable {s t : State} {r : BitVec 6}

theorem exec_command_busy (hp : s.phase ≠ .idle) (len : BitVec 16) :
    exec .nop s = .next s ∧ exec (.keyLoad len) s = .next s ∧ exec (.encrypt len) s = .next s ∧
      exec (.decrypt len) s = .next s :=
  ⟨by rw [exec, execNop_eq, if_neg hp], by rw [exec, execKeyLoad_eq, if_pos hp], by rw [exec, execEncrypt_eq, if_pos hp],
    by rw [exec, execDecrypt_eq, if_pos hp]⟩

/-- No row of ADVANCE reads what the host drives. -/
theorem AdvanceRow.with_host (h : AdvanceRow s r t) (l : List HostDrive) :
    AdvanceRow { s with host := l } r { t with host := l } := by
  cases h with
  | kexpStep hp h4 h42 hw => exact .kexpStep hp h4 h42 hw
  | kexpFinal hp h43 hw => exact .kexpFinal hp h43 hw
  | encRound hp h1 h9 ha hks => exact .encRound hp h1 h9 ha hks
  | encFinal hp h10 ha hks => exact .encFinal hp h10 ha hks
  | decRound hp h1 h9 ha hks => exact .decRound hp h1 h9 ha hks
  | decFinal hp h0 ha hks => exact .decFinal hp h0 ha hks

/-- Settles O37. While the core is busy only ADVANCE is enabled, whose rows do not read the host's list. -/
theorem busyCoreIgnoresHost : Obligations.BusyCoreIgnoresHost := by
  refine ⟨fun s len hp => exec_command_busy hp len, fun s t l hs hp hl hstep => ?_⟩
  cases stepRow_of_step hs.2 hstep with
  | reset h => exact absurd (hs.1.symm.trans h) nofun
  | respond _ _ h => exact absurd h hp
  | keyLoad _ h => exact absurd h hp
  | encrypt _ h => exact absurd h hp
  | decrypt _ h => exact absurd h hp
  | wait _ h => exact absurd h hp
  | advance _ _ hc hrow =>
    have hadv := (advance_eq_next (s := { s with host := l }) hc).mpr (hrow.with_host l)
    have hrun : Running { s with host := l } := ⟨hl, hs.2⟩
    refine ⟨waitedHost l, ?_, waitedHost_eq l⟩
    rw [step_of_advance hrun hp hadv, State.waitHost_eq]

end Busy

/-! ### A step runs the decoded instruction (R160) -/

section Dispatch

variable {s t : State} {w : BitVec 12} {i : Instr}

/-- A drive that offers nothing is used up by any step. -/
theorem waitedHost_of_no_offer {h : List HostDrive} (hv : (h.headD HostDrive.quiet).cmdValid = false) :
    waitedHost h = h.tail := by
  rw [waitedHost, hv]
  rfl

/-- A micro-operation run alone with the ports quiet (log 5). -/
theorem step_microOp_of_exec (hr : s.ports.rst = false) (hv : s.ports.cmdValid = false) (hu : s.uopSlot = some w)
    (hd : decodeUop w = .ok i) (he : exec i { s with uopSlot := none } = .next t) :
    step s = .next { t with host := t.host.tail } := by
  have hhost : waitedHost t.host = t.host.tail := waitedHost_of_no_offer (by rw [exec_host he]; exact hv)
  rw [step_microOp hr hu, runMicroOp, decode, hd]
  simp only [he, andWaitHost_next, State.waitHost_eq, hhost]

/-- Settles O38, one transition for each clause. -/
theorem stepRunsDecodedInstruction : Obligations.StepRunsDecodedInstruction :=
  ⟨fun _ _ _ _ ho hd he => step_of_exec ho hd he, fun _ _ _ _ hr hv hu hd he => step_microOp_of_exec hr hv hu hd he,
    fun _ hs hp hv => step_wait hs.1 hs.2 hp hv⟩

/-- The decoder of table words reads what the decoder of code words does (log 12). -/
theorem decode_of_decodeTableWord {n w : Nat} (h : decodeTableWord n w = some i) :
    ∃ c, tableCode n w = some c ∧ decode c = .ok i := by
  unfold decodeTableWord at h
  split at h
  · cases h
  · split at h
    · cases h
      exact ⟨_, ‹_›, ‹_›⟩
    · cases h

theorem tableCode_32 {w : Nat} {c : Code} (h : tableCode 32 w = some c) : c = .cmd (BitVec.ofNat 32 w) := by
  rw [tableCode, if_neg (by decide), if_neg (by decide)] at h
  split at h <;> cases h
  rfl

theorem tableCode_16 {w : Nat} {c : Code} (h : tableCode 16 w = some c) : c = .uop (BitVec.ofNat 12 w) := by
  rw [tableCode, if_neg (by decide), if_pos (by decide)] at h
  split at h <;> cases h
  rfl

/-- Settles O39. A placed command is an offer to an idle core, a placed micro-operation stands alone in `uopSlot`; either
way the step uses up the drive that the placing added. -/
theorem placedWordRunsNext : Obligations.PlacedWordRunsNext := by
  constructor
  · intro s t w i hd he
    obtain ⟨c, hc, hi⟩ := decode_of_decodeTableWord hd
    rw [tableCode_32 hc] at hi
    have ho : Offered (s.withFetchWord 32 w) (BitVec.ofNat 32 w) := ⟨⟨rfl, rfl⟩, rfl, rfl, rfl⟩
    rw [step_of_exec ho hi he, exec_host he]
    rfl
  · intro s t w i hd he
    obtain ⟨c, hc, hi⟩ := decode_of_decodeTableWord hd
    rw [tableCode_16 hc] at hi
    rw [step_microOp_of_exec (s := s.withFetchWord 16 w) rfl rfl rfl hi he, exec_host he]
    rfl

end Dispatch

end Sys2Proof.Machine
end

section
/-! PROOFS. ENC and DEC steps as their micro-operations (R168 to R173), and the table of ADVANCE (R177). -/

namespace Sys2Proof.Machine

open Sys2Proof.Spec

/-! ### Steps of the ciphers as micro-operations -/

section Ciphers

variable {s u v : State} {r : BitVec 6} {b : Block}

theorem runInstrs_append (is js : List Instr) (s : State) :
    runInstrs (is ++ js) s = andThen (runInstrs is s) (runInstrs js) := by
  induction is generalizing s with
  | nil => rfl
  | cons i is ih => simp only [List.cons_append, runInstrs, andThen_assoc]; exact congrArg _ (funext ih)

/-- R168. -/
theorem encRound_eq_runInstrs (r : BitVec 6) (s : State) :
    encRound r s = andThen (runInstrs [.subBytes, .shiftRows, .mixColumns, .addRoundKey r] s) fun u =>
      .next { u with ctr := some (r + 1) } := by
  simp only [encRound, runInstrs, exec, andThen_assoc, andThen_next]

/-- R169. -/
theorem encFinal_eq_runInstrs (s : State) :
    encFinal s = andThen (runInstrs [.subBytes, .shiftRows, .addRoundKey 10] s) finishBlock := by
  simp only [encFinal, runInstrs, exec, andThen_assoc, andThen_next]

/-- R172. -/
theorem decRound_eq_runInstrs (r : BitVec 6) (s : State) :
    decRound r s = andThen (runInstrs [.invShiftRows, .invSubBytes, .addRoundKey r, .invMixColumns] s) fun u =>
      .next { u with ctr := some (r - 1) } := by
  simp only [decRound, runInstrs, exec, andThen_assoc, andThen_next]

/-- R173. -/
theorem decFinal_eq_runInstrs (s : State) :
    decFinal s = andThen (runInstrs [.invShiftRows, .invSubBytes, .addRoundKey 0] s) finishBlock := by
  simp only [decFinal, runInstrs, exec, andThen_assoc, andThen_next]

/-- An instruction that changes nothing but `st`. -/
def WritesStOnly (i : Instr) : Prop := ∀ s t, exec i s = .next t → ∃ a, t = { s with st := a }

theorem writesStOnly_of_mapSt {i : Instr} {f : StateArr → StateArr} (h : ∀ s, exec i s = mapSt f s) : WritesStOnly i := by
  intro s t ht
  obtain ⟨a, -, rfl⟩ := mapSt_eq_next.mp ((h s).symm.trans ht)
  exact ⟨_, rfl⟩

theorem writesStOnly_addRoundKey (r : BitVec 6) : WritesStOnly (.addRoundKey r) := by
  intro s t ht
  obtain ⟨-, a, ks, -, -, rfl⟩ := execAddRoundKey_eq_next.mp ht
  exact ⟨_, rfl⟩

theorem runInstrs_writesStOnly {is : List Instr} (h : ∀ i ∈ is, WritesStOnly i) (hrun : runInstrs is s = .next u) :
    ∃ a, u = { s with st := a } := by
  induction is generalizing s with
  | nil => exact ⟨_, next_eq_next.mp hrun⟩
  | cons i is ih =>
    obtain ⟨v, hv, hrest⟩ := andThen_eq_next.mp hrun
    obtain ⟨a, rfl⟩ := h i (by simp) s v hv
    obtain ⟨c, rfl⟩ := ih (fun j hj => h j (by simp [hj])) hrest
    exact ⟨c, rfl⟩

theorem writesStOnly_encFinal : ∀ i ∈ [.subBytes, .shiftRows, .addRoundKey 10], WritesStOnly i := by
  simp only [List.forall_mem_cons]
  exact ⟨writesStOnly_of_mapSt fun _ => rfl, writesStOnly_of_mapSt fun _ => rfl, writesStOnly_addRoundKey 10, nofun⟩

theorem writesStOnly_decFinal : ∀ i ∈ [.invShiftRows, .invSubBytes, .addRoundKey 0], WritesStOnly i := by
  simp only [List.forall_mem_cons]
  exact ⟨writesStOnly_of_mapSt fun _ => rfl, writesStOnly_of_mapSt fun _ => rfl, writesStOnly_addRoundKey 0, nofun⟩

/-- A final step answers with the block that STORE_STATE would put into `out`, and leaves `out` alone (log 4). -/
theorem finish_of_storeState {is : List Instr} (h : ∀ i ∈ is, WritesStOnly i)
    (hrun : runInstrs (is ++ [.storeState]) s = .next u) (hb : u.out = some (.block b)) :
    andThen (runInstrs is s) finishBlock =
      .next { u with st := none, ctr := none, phase := .idle, rsp := some ⟨.ok, some b⟩, out := s.out } := by
  rw [runInstrs_append] at hrun
  obtain ⟨v, hv, hstore⟩ := andThen_eq_next.mp hrun
  rw [runInstrs_singleton] at hstore
  obtain ⟨a, ha, rfl⟩ := execStoreState_eq_next.mp hstore
  cases hb
  rw [hv, andThen_next, finishBlock_eq_next.mpr ⟨a, ha, rfl⟩]
  obtain ⟨c, rfl⟩ := runInstrs_writesStOnly h hv
  rfl

/-- Settles O41. The step is the sequence of its micro-operations; the final one ends as STORE_STATE does (R169). -/
theorem encStepRunsMicroOps : Obligations.EncStepRunsMicroOps := by
  constructor
  · intro s u r hs hp hc h1 h9 hrun
    have hadv : advance s = .next { u with ctr := some (r + 1) } := by
      rw [advance_encRound hp hc h1 h9, encRound_eq_runInstrs, hrun, andThen_next]
    exact ⟨_, step_of_advance hs (by simp [hp]) hadv⟩
  · intro s u b hs hp hc hrun hb
    have hadv : advance s = .next
        { u with st := none, ctr := none, phase := .idle, rsp := some ⟨.ok, some b⟩, out := s.out } := by
      rw [advance_encFinal hp hc, encFinal_eq_runInstrs]
      exact finish_of_storeState writesStOnly_encFinal hrun hb
    exact ⟨_, step_of_advance hs (by simp [hp]) hadv⟩

/-- Settles O42. As in ENC, in the order of the direct form (R172). -/
theorem decStepRunsMicroOps : Obligations.DecStepRunsMicroOps := by
  constructor
  · intro s u r hs hp hc h1 h9 hrun
    have hadv : advance s = .next { u with ctr := some (r - 1) } := by
      rw [advance_decRound hp hc h1 h9, decRound_eq_runInstrs, hrun, andThen_next]
    exact ⟨_, step_of_advance hs (by simp [hp]) hadv⟩
  · intro s u b hs hp hc hrun hb
    have hadv : advance s = .next
        { u with st := none, ctr := none, phase := .idle, rsp := some ⟨.ok, some b⟩, out := s.out } := by
      rw [advance_decFinal hp hc, decFinal_eq_runInstrs]
      exact finish_of_storeState writesStOnly_decFinal hrun hb
    exact ⟨_, step_of_advance hs (by simp [hp]) hadv⟩

end Ciphers

/-! ### The table of ADVANCE -/

section Table

variable {s t : State} {r : BitVec 6}

/-- A row of the table as a step of the machine. -/
theorem AdvanceRow.step_eq (h : AdvanceRow s r t) (hs : Running s) (hc : s.ctr = some r) :
    step s = .next { t with host := waitedHost t.host } := by
  have busy : s.phase ≠ .idle := by cases h <;> simp [*]
  exact step_of_advance hs busy ((advance_eq_next hc).mpr h)

/-- From the invariants a step of a command in flight is a row of the table. -/
theorem Inv.step_advance (hi : Inv s) (hr : s.ports.rst = false) (hc : s.ctr = some r) :
    ∃ t, AdvanceRow s r t ∧ step s = .next { t with host := waitedHost t.host } := by
  obtain ⟨t, ht⟩ := hi.advance_progress hc
  exact ⟨t, ht, ht.step_eq ⟨hr, hi.no_uop⟩ hc⟩

theorem step_fault_of_advance {f : Fault} (hs : Running s) (hp : s.phase ≠ .idle) (h : advance s = .fault f) :
    step s = .fault f := by
  rw [step_busy hs.1 hs.2 hp, h]
  rfl

/-- R177: every other pair is a model fault. -/
theorem advance_badSequence (hc : s.ctr = some r)
    (h : (s.phase = .keyexp ∧ ¬ (4 ≤ r.toNat ∧ r.toNat ≤ 43)) ∨ (s.phase = .enc ∧ ¬ (1 ≤ r.toNat ∧ r.toNat ≤ 10)) ∨
      (s.phase = .dec ∧ 9 < r.toNat)) : advance s = .fault .badSequence := by
  rw [advance_at hc]
  rcases h with ⟨hp, h⟩ | ⟨hp, h⟩ | ⟨hp, h⟩ <;> simp only [hp, advanceAt]
  all_goals rw [if_neg (by omega), if_neg (by omega)]

/-- Settles O43. The invariants put the counter into the range of its phase, so a row applies; outside that range none
does. -/
theorem advanceFollowsTable : Obligations.AdvanceFollowsTable := by
  refine ⟨fun s hi hr hp => ?_, fun s r hs hc h => ?_, fun s hs hp hc => ?_⟩
  · obtain ⟨r, hc⟩ := hi.ctr_of_busy hp
    obtain ⟨t, hrow, hstep⟩ := hi.step_advance hr hc
    have hrsp := hi.busy_rsp hp
    refine ⟨_, r, hc, hstep, ?_⟩
    cases hrow with
    | kexpStep hp _ h42 => simp [hp, hrsp, show r.toNat ≠ 43 by omega]
    | kexpFinal hp h43 => simp [hp, h43]
    | encRound hp _ h9 => simp [hp, hrsp, show r.toNat ≠ 10 by omega]
    | encFinal hp h10 => simp [hp, h10]
    | decRound hp h1 _ => simp [hp, hrsp, show r.toNat ≠ 0 by omega]
    | decFinal hp h0 => simp [hp, h0]
  · refine step_fault_of_advance hs ?_ (advance_badSequence hc h)
    rcases h with ⟨hp, -⟩ | ⟨hp, -⟩ | ⟨hp, -⟩ <;> simp [hp]
  · refine step_fault_of_advance hs hp ?_
    rw [advance, hc]

end Table

end Sys2Proof.Machine
end

section
/-! PROOFS. The key expansion as a list (R114): its words by the recursion of R113, so that a complete schedule in `W` is
KEYEXPAND of its key. -/

namespace Sys2Proof.Machine

/-- The first `4 + n` words of the schedule of `key`. -/
def expandedWords (key : Block) (n : Nat) : List Word :=
  (List.range' 4 n).foldl expandStep [keyWord key 0, keyWord key 1, keyWord key 2, keyWord key 3]

theorem keyExpand_eq (key : Block) : keyExpand key = expandedWords key 40 := rfl

theorem expandedWords_succ (key : Block) (n : Nat) :
    expandedWords key (n + 1) = expandStep (expandedWords key n) (4 + n) := by
  rw [expandedWords, List.range'_concat, List.foldl_concat, Nat.one_mul]
  rfl

@[simp] theorem length_expandedWords (key : Block) (n : Nat) : (expandedWords key n).length = 4 + n := by
  induction n with
  | zero => rfl
  | succ n ih => rw [expandedWords_succ, expandStep, List.length_append, ih]; rfl

/-- A word once written stays. -/
theorem getD_expandedWords_succ {key : Block} {n i : Nat} (h : i < 4 + n) :
    (expandedWords key (n + 1)).getD i 0 = (expandedWords key n).getD i 0 := by
  rw [expandedWords_succ, expandStep, List.getD_append _ _ _ _ (by simpa using h)]

theorem getD_expandedWords_key (key : Block) (n : Nat) {i : Nat} (h : i < 4) :
    (expandedWords key n).getD i 0 = keyWord key i := by
  induction n with
  | zero => interval_cases i <;> rfl
  | succ n ih => rw [getD_expandedWords_succ (by omega), ih]

/-- R113 for the list. -/
theorem getD_expandedWords_derived (key : Block) (n : Nat) {i : Nat} (h4 : 4 ≤ i) (hi : i < 4 + n) :
    (expandedWords key n).getD i 0 =
      (expandedWords key n).getD (i - 4) 0 ^^^ kexpTemp i ((expandedWords key n).getD (i - 1) 0) := by
  induction n with
  | zero => omega
  | succ n ih =>
    rw [getD_expandedWords_succ (show i - 4 < 4 + n by omega), getD_expandedWords_succ (show i - 1 < 4 + n by omega)]
    rcases Nat.lt_or_eq_of_le (Nat.le_of_lt_succ hi) with hlt | rfl
    · rw [getD_expandedWords_succ hlt, ih hlt]
    · rw [expandedWords_succ, expandStep, List.getD_append_right _ _ _ _ (by simp)]
      simp

/-- A schedule in `W` is KEYEXPAND of its key (R114). -/
theorem ScheduleUpTo.getElem? {key : Block} {W : KeyStore} (h : ScheduleUpTo key 44 W) {i : Nat} (hi : i < 44) :
    W[i]? = some (some ((keyExpand key).getD i 0)) := by
  obtain ⟨hkey, hderived⟩ := h
  induction i using Nat.strong_induction_on with
  | _ i ih =>
    by_cases h4 : i < 4
    · rw [hkey i hi h4, keyExpand_eq, getD_expandedWords_key key 40 h4]
    · obtain ⟨p, u, hp, hu, hw⟩ := hderived i (by omega) hi hi
      rw [ih (i - 4) (by omega) (by omega)] at hp
      rw [ih (i - 1) (by omega) (by omega)] at hu
      rw [hw, ← Option.some.inj (Option.some.inj hp), ← Option.some.inj (Option.some.inj hu), keyExpand_eq,
        ← getD_expandedWords_derived key 40 (by omega) (by omega)]

theorem length_keyExpand (key : Block) : (keyExpand key).length = 44 := length_expandedWords key 40

end Sys2Proof.Machine
end

section
/-! PROOFS. Runs of a command (R179): the accept step, the steps in flight and the final step, for each of the three
sequences, and how many steps are left (R178). -/

namespace Sys2Proof.Machine

open Sys2Proof.Spec

/-! ### Runs by steps -/

section Runs

variable {s : State}

theorem runSteps_one (s : State) : runSteps 1 s = step s := by
  rw [runSteps_succ]
  cases step s <;> rfl

theorem runSteps_succ_of_next {t : State} (k : Nat) (h : step s = .next t) : runSteps (k + 1) s = runSteps k t := by
  rw [runSteps_succ, h, andThen_next]

/-- A run of `n + 2` steps by its first step, `n` steps in between that keep `P` with its count, and its last step. -/
theorem runSteps_command {P : Nat → State → Prop} {Q : State → Prop} {n : Nat} (first : ∃ u, step s = .next u ∧ P 0 u)
    (next : ∀ k u, k < n → P k u → ∃ v, step u = .next v ∧ P (k + 1) v) (last : ∀ u, P n u → ∃ v, step u = .next v ∧ Q v) :
    (∃ t, runSteps (n + 2) s = .next t ∧ Q t) ∧
      ∀ k, 1 ≤ k → k ≤ n + 1 → ∃ u, runSteps k s = .next u ∧ P (k - 1) u := by
  have run (k : Nat) (hk : k ≤ n) : ∃ u, runSteps (k + 1) s = .next u ∧ P k u := by
    induction k with
    | zero => rwa [runSteps_one]
    | succ k ih =>
      obtain ⟨u, hu, hP⟩ := ih (by omega)
      obtain ⟨v, hv, hQ⟩ := next k u (by omega) hP
      exact ⟨v, by rw [runSteps_add (k + 1) 1, hu, andThen_next, runSteps_one, hv], hQ⟩
  constructor
  · obtain ⟨u, hu, hP⟩ := run n le_rfl
    obtain ⟨v, hv, hQ⟩ := last u hP
    exact ⟨v, by rw [runSteps_add (n + 1) 1, hu, andThen_next, runSteps_one, hv], hQ⟩
  · intro k h1 hk
    obtain ⟨u, hu, hP⟩ := run (k - 1) (by omega)
    exact ⟨u, by rwa [Nat.sub_add_cancel h1] at hu, hP⟩

/-- The host of a command in flight: an offer it held is still there, and nothing is new. -/
theorem noReset_iterate (h : NoReset s) (k : Nat) : ∀ d ∈ waitedHost^[k] s.host.tail, d.rst = false := by
  induction k with
  | zero => exact fun d hd => h d (List.mem_of_mem_tail hd)
  | succ k ih =>
    rw [Function.iterate_succ_apply']
    exact fun d hd => ih d (mem_of_mem_waitedHost hd)

/-- An offer of a valid command to an idle core (R26, R82). -/
theorem offered_of_validOffer {op : BitVec 4} {d : Block} {hold : Bool} (hp : s.phase = .idle) (hu : s.uopSlot = none)
    (h : s.ports = validOffer op d hold) : Offered s (word32 16 0 op) ∧ s.din = d := by
  refine ⟨⟨⟨?_, hu⟩, hp, ?_, ?_⟩, ?_⟩
  all_goals simp [State.din, h, validOffer]

end Runs

/-! ### The key expansion (R163 to R165) -/

section KeyLoad

variable {s : State} {key : Block} {hold : Bool}

/-- `s` as it is `k` steps after the acceptance of a KEY_LOAD, with the store `W`. -/
def expanding (s : State) (W : KeyStore) (k : Nat) : State :=
  { s with W := W, keyValid := false, ctr := some (BitVec.ofNat 6 (4 + k)), phase := .keyexp, rsp := none,
           host := waitedHost^[k] s.host.tail }

/-- `s` as it is after the expansion. -/
def expanded (s : State) (W : KeyStore) : State :=
  { s with W := W, keyValid := true, ctr := none, phase := .idle, rsp := some ⟨.ok, none⟩,
           host := waitedHost^[40] s.host.tail }

theorem step_keyLoad (ho : Offered s (word32 16 0 0x1)) :
    step s = .next (expanding s (discardWords (loadKeyWords s.din s.W)) 0) := by
  rw [step_of_exec ho (decodeCmd_keyLoad 16) ((exec_keyLoad_valid ho.2.1).trans (keyLoadStart_eq _))]
  rfl

theorem running_expanding (hu : s.uopSlot = none) (hr : NoReset s) (W : KeyStore) (k : Nat) :
    Running (expanding s W k) :=
  ⟨NoReset.ports (s := expanding s W k) (noReset_iterate hr k), hu⟩

/-- A schedule so far has the words that the next one is derived from. -/
theorem ScheduleUpTo.derivedWord {n : Nat} (h : ScheduleUpTo key n s.W) (h4 : 4 ≤ n) (hn : n ≤ 43) :
    ∃ w, DerivedWord s n w := by
  refine DerivedWord.exists_of (fun k hk => (isSome_iff_getElem? s.W k).mpr ?_) h4 hn
  by_cases hk4 : k.val < 4
  · exact ⟨_, h.1 k hk hk4⟩
  · obtain ⟨p, u, -, -, hw⟩ := h.2 k (by omega) hk k.isLt
    exact ⟨_, hw⟩

theorem step_expanding (hu : s.uopSlot = none) (hr : NoReset s) {W : KeyStore} {k : Nat} (hk : k < 39)
    (hW : ScheduleUpTo key (4 + k) W) :
    ∃ W', ScheduleUpTo key (4 + (k + 1)) W' ∧ step (expanding s W k) = .next (expanding s W' (k + 1)) := by
  obtain ⟨w, hw⟩ := ScheduleUpTo.derivedWord (s := expanding s W k) hW (by omega) (by omega)
  have hc : (BitVec.ofNat 6 (4 + k)).toNat = 4 + k := by rw [BitVec.toNat_ofNat]; omega
  have hrow : AdvanceRow (expanding s W k) (BitVec.ofNat 6 (4 + k)) _ := .kexpStep rfl (by omega) (by omega) (hc ▸ hw)
  refine ⟨_, hW.writeW (s := expanding s W k) (by omega) hw, ?_⟩
  rw [hrow.step_eq (running_expanding hu hr W k) rfl, hc]
  simp only [expanding, Function.iterate_succ_apply', ← Nat.add_assoc, BitVec.ofNat_add]
  rfl

theorem step_expanding_last (hu : s.uopSlot = none) (hr : NoReset s) {W : KeyStore} (hW : ScheduleUpTo key 43 W) :
    ∃ W', ScheduleUpTo key 44 W' ∧ step (expanding s W 39) = .next (expanded s W') := by
  obtain ⟨w, hw⟩ := ScheduleUpTo.derivedWord (s := expanding s W 39) hW (by omega) (by omega)
  have hrow : AdvanceRow (expanding s W 39) 43 _ := .kexpFinal rfl rfl hw
  refine ⟨_, hW.writeW (s := expanding s W 39) (by omega) hw, ?_⟩
  rw [hrow.step_eq (running_expanding hu hr W 39) rfl]
  rw [expanded, Function.iterate_succ_apply' _ 39]
  simp only [expanding, State.writeW]

/-- R165, R179: the run of a valid KEY_LOAD. -/
theorem runSteps_keyLoad (hp : s.phase = .idle) (hu : s.uopSlot = none) (h : s.ports = validOffer 0x1 key hold)
    (hr : NoReset s) :
    (∃ t, runSteps 41 s = .next t ∧ ∃ W, ScheduleUpTo key 44 W ∧ t = expanded s W) ∧
      ∀ k, 1 ≤ k → k ≤ 40 → ∃ u, runSteps k s = .next u ∧ ∃ W, ScheduleUpTo key (4 + (k - 1)) W ∧
        u = expanding s W (k - 1) := by
  obtain ⟨ho, hdin⟩ := offered_of_validOffer hp hu h
  refine runSteps_command (P := fun k u => ∃ W, ScheduleUpTo key (4 + k) W ∧ u = expanding s W k) ⟨_, step_keyLoad ho, _,
    hdin ▸ scheduleUpTo_loaded s.din s.W, rfl⟩ ?_ ?_
  · rintro k u hk ⟨W, hW, rfl⟩
    obtain ⟨W', hW', hstep⟩ := step_expanding hu hr hk hW
    exact ⟨_, hstep, W', hW', rfl⟩
  · rintro u ⟨W, hW, rfl⟩
    obtain ⟨W', hW', hstep⟩ := step_expanding_last hu hr hW
    exact ⟨_, hstep, W', hW', rfl⟩

/-- Settles O53. Each step in flight adds the next word to the schedule of the key, and 44 such words are KEYEXPAND. -/
theorem keyLoadRunsExpansion : Obligations.KeyLoadRunsExpansion := by
  intro s key hold hp hu h hr
  obtain ⟨⟨t, ht, W, hW, rfl⟩, hmid⟩ := runSteps_keyLoad hp hu h hr
  refine ⟨⟨_, ht, rfl, rfl, rfl, rfl, length_keyExpand key, fun i => ?_⟩, fun k h1 hk => ?_⟩
  · have hi := (getElem_eq_iff_getElem? W i _).mpr (hW.getElem? i.isLt)
    rw [List.getD_eq_getElem _ _ ((length_keyExpand key).symm ▸ i.isLt)] at hi
    exact hi.trans (List.getElem?_eq_getElem _).symm
  · obtain ⟨u, hu', W, -, rfl⟩ := hmid k h1 hk
    exact ⟨_, hu', rfl, rfl⟩

end KeyLoad

/-! ### The ciphers (R167 to R175) -/

section Cipher

variable {s : State} {ws : Vector Word 44} {b : Block} {hold : Bool} {a : StateArr} {r k : Nat}

/-- `s` as it is `k` steps after the acceptance of a cipher command, at counter `r` with the array `a`. -/
def ciphering (s : State) (p : Phase) (r : Nat) (a : StateArr) (k : Nat) : State :=
  { s with st := some a, ctr := some (BitVec.ofNat 6 r), phase := p, rsp := none, host := waitedHost^[k] s.host.tail }

/-- `s` as it is after a cipher command with the result `b`. -/
def ciphered (s : State) (b : Block) : State :=
  { s with st := none, ctr := none, phase := .idle, rsp := some ⟨.ok, some b⟩, host := waitedHost^[10] s.host.tail }

theorem running_ciphering (hu : s.uopSlot = none) (hr : NoReset s) (p : Phase) (r : Nat) (a : StateArr) (k : Nat) :
    Running (ciphering s p r a k) :=
  ⟨NoReset.ports (s := ciphering s p r a k) (noReset_iterate hr k), hu⟩

/-- R56: the round keys of a complete schedule. -/
theorem roundKeyAt_of_holds (h : Holds s.W ws) (hr : r ≤ 10) : RoundKeyAt s r (roundKeyOf ws.toList r) := by
  have hw (i : Nat) (hi : i < 44) : s.W[i]? = some (some (ws.toList.getD i 0)) := by
    rw [List.getD_eq_getElem _ _ (by simpa using hi)]
    exact (getElem_eq_iff_getElem? s.W ⟨i, hi⟩ _).mp (h ⟨i, hi⟩)
  intro c
  rw [hw _ (by omega)]
  fin_cases c <;> rfl

/-- R174: ENC_BLOCK's state after round `n`. -/
def encState (ws : List Word) (b : Block) (n : Nat) : StateArr :=
  (List.range' 1 n).foldl (encRoundFn ws) (addRoundKey (roundKeyOf ws 0) (blockToState b))

theorem encState_succ (ws : List Word) (b : Block) (n : Nat) :
    encState ws b (n + 1) = encRoundFn ws (encState ws b n) (n + 1) := by
  rw [encState, List.range'_concat, List.foldl_concat, Nat.one_mul, Nat.add_comm 1 n]
  rfl

theorem encBlock_eq (ws : List Word) (b : Block) :
    encBlock ws b = stateToBlock (addRoundKey (roundKeyOf ws 10) (shiftRows (subBytes (encState ws b 9)))) := rfl

theorem decAfter_ten (ws : List Word) (b : Block) :
    decAfter ws b 10 = addRoundKey (roundKeyOf ws 10) (blockToState b) := rfl

theorem decAfter_of_lt (ws : List Word) (b : Block) (h : r < 10) :
    decAfter ws b r = decRoundFn ws (decAfter ws b (r + 1)) r := by
  have hlen : 10 - r = (10 - (r + 1)) + 1 := by omega
  rw [decAfter, hlen, List.range'_succ, List.reverse_cons, List.foldl_concat]
  rfl

theorem decBlock_eq (ws : List Word) (b : Block) :
    decBlock ws b = stateToBlock (addRoundKey (roundKeyOf ws 0) (invSubBytes (invShiftRows (decAfter ws b 1)))) := rfl

theorem step_encrypt (ho : Offered s (word32 16 0 0x2)) (hk : s.keyValid = true) (hW : Holds s.W ws) :
    step s = .next (ciphering s .enc 1 (encState ws.toList s.din 0) 0) := by
  have hstart := encStart_eq_next.mpr ⟨_, (roundKeyAt_of_holds hW (by omega)).of_W (t := { s with rsp := none }) rfl, rfl⟩
  rw [step_of_exec ho (decodeCmd_encrypt 16) ((exec_encrypt_valid ho.2.1 hk).trans hstart)]
  rfl

theorem step_encrypting (hu : s.uopSlot = none) (hr : NoReset s) (hW : Holds s.W ws) (h1 : 1 ≤ r) (h9 : r ≤ 9) :
    step (ciphering s .enc r a k) = .next (ciphering s .enc (r + 1) (encRoundFn ws.toList a r) (k + 1)) := by
  have hc : (BitVec.ofNat 6 r).toNat = r := by rw [BitVec.toNat_ofNat]; omega
  have hks : RoundKeyAt (ciphering s .enc r a k) r (roundKeyOf ws.toList r) := (roundKeyAt_of_holds hW (by omega)).of_W rfl
  have hrow : AdvanceRow (ciphering s .enc r a k) (BitVec.ofNat 6 r) _ :=
    .encRound rfl (by omega) (by omega) rfl (hc.symm ▸ hks)
  rw [hrow.step_eq (running_ciphering hu hr _ r a k) rfl, hc]
  simp only [ciphering, Function.iterate_succ_apply', BitVec.ofNat_add]
  rfl

theorem step_encrypting_last (hu : s.uopSlot = none) (hr : NoReset s) (hW : Holds s.W ws) :
    step (ciphering s .enc 10 a 9) =
      .next (ciphered s (stateToBlock (addRoundKey (roundKeyOf ws.toList 10) (shiftRows (subBytes a))))) := by
  have hks : RoundKeyAt (ciphering s .enc 10 a 9) 10 (roundKeyOf ws.toList 10) := (roundKeyAt_of_holds hW (by omega)).of_W rfl
  have hrow : AdvanceRow (ciphering s .enc 10 a 9) 10 _ := .encFinal rfl rfl rfl hks
  rw [hrow.step_eq (running_ciphering hu hr _ 10 a 9) rfl]
  rw [ciphered, Function.iterate_succ_apply' _ 9]
  rfl

/-- R174, R179: the run of a valid ENCRYPT. -/
theorem runSteps_encrypt (hp : s.phase = .idle) (hu : s.uopSlot = none) (hk : s.keyValid = true) (hW : Holds s.W ws)
    (h : s.ports = validOffer 0x2 b hold) (hr : NoReset s) :
    (∃ t, runSteps 11 s = .next t ∧ t = ciphered s (encBlock ws.toList b)) ∧ ∀ k, 1 ≤ k → k ≤ 10 →
      ∃ u, runSteps k s = .next u ∧ u = ciphering s .enc (k - 1 + 1) (encState ws.toList b (k - 1)) (k - 1) := by
  obtain ⟨ho, hdin⟩ := offered_of_validOffer hp hu h
  refine runSteps_command (P := fun k u => u = ciphering s .enc (k + 1) (encState ws.toList b k) k)
    ⟨_, step_encrypt ho hk hW, by rw [hdin]⟩ ?_ ?_
  · rintro k u hk rfl
    exact ⟨_, step_encrypting hu hr hW (by omega) (by omega), by rw [encState_succ]⟩
  · rintro u rfl
    exact ⟨_, step_encrypting_last hu hr hW, rfl⟩

/-- Settles O54. The array in flight is ENC_BLOCK's own state after as many rounds. -/
theorem encryptRunsEncBlock : Obligations.EncryptRunsEncBlock := by
  intro s ws b hold hp hu hk hW h hr
  obtain ⟨⟨t, ht, rfl⟩, hmid⟩ := runSteps_encrypt hp hu hk hW h hr
  refine ⟨⟨_, ht, rfl, rfl, rfl, rfl, hk, rfl⟩, fun k h1 hk => ?_⟩
  obtain ⟨u, hu', rfl⟩ := hmid k h1 hk
  exact ⟨_, hu', rfl, rfl⟩

theorem step_decrypt (ho : Offered s (word32 16 0 0x3)) (hk : s.keyValid = true) (hW : Holds s.W ws) :
    step s = .next (ciphering s .dec 9 (decAfter ws.toList s.din 10) 0) := by
  have hstart := decStart_eq_next.mpr ⟨_, (roundKeyAt_of_holds hW (by omega)).of_W (t := { s with rsp := none }) rfl, rfl⟩
  rw [step_of_exec ho (decodeCmd_decrypt 16) ((exec_decrypt_valid ho.2.1 hk).trans hstart)]
  rfl

theorem step_decrypting (hu : s.uopSlot = none) (hr : NoReset s) (hW : Holds s.W ws) (h9 : r + 1 ≤ 9) :
    step (ciphering s .dec (r + 1) a k) = .next (ciphering s .dec r (decRoundFn ws.toList a (r + 1)) (k + 1)) := by
  have hc : (BitVec.ofNat 6 (r + 1)).toNat = r + 1 := by rw [BitVec.toNat_ofNat]; omega
  have hks : RoundKeyAt (ciphering s .dec (r + 1) a k) (r + 1) (roundKeyOf ws.toList (r + 1)) :=
    (roundKeyAt_of_holds hW (by omega)).of_W rfl
  have hrow : AdvanceRow (ciphering s .dec (r + 1) a k) (BitVec.ofNat 6 (r + 1)) _ :=
    .decRound rfl (by omega) (by omega) rfl (hc.symm ▸ hks)
  have hpred : BitVec.ofNat 6 (r + 1) - 1 = BitVec.ofNat 6 r := by simp [BitVec.ofNat_add]
  rw [hrow.step_eq (running_ciphering hu hr _ _ a k) rfl, hc, hpred]
  simp only [ciphering, Function.iterate_succ_apply']
  rfl

theorem step_decrypting_last (hu : s.uopSlot = none) (hr : NoReset s) (hW : Holds s.W ws) :
    step (ciphering s .dec 0 a 9) =
      .next (ciphered s (stateToBlock (addRoundKey (roundKeyOf ws.toList 0) (invSubBytes (invShiftRows a))))) := by
  have hks : RoundKeyAt (ciphering s .dec 0 a 9) 0 (roundKeyOf ws.toList 0) := (roundKeyAt_of_holds hW (by omega)).of_W rfl
  have hrow : AdvanceRow (ciphering s .dec 0 a 9) 0 _ := .decFinal rfl rfl rfl hks
  rw [hrow.step_eq (running_ciphering hu hr _ 0 a 9) rfl]
  rw [ciphered, Function.iterate_succ_apply' _ 9]
  rfl

/-- R175, R179: the run of a valid DECRYPT. -/
theorem runSteps_decrypt (hp : s.phase = .idle) (hu : s.uopSlot = none) (hk : s.keyValid = true) (hW : Holds s.W ws)
    (h : s.ports = validOffer 0x3 b hold) (hr : NoReset s) :
    (∃ t, runSteps 11 s = .next t ∧ t = ciphered s (decBlock ws.toList b)) ∧ ∀ k, 1 ≤ k → k ≤ 10 →
      ∃ u, runSteps k s = .next u ∧ u = ciphering s .dec (9 - (k - 1)) (decAfter ws.toList b (10 - (k - 1))) (k - 1) := by
  obtain ⟨ho, hdin⟩ := offered_of_validOffer hp hu h
  refine runSteps_command (P := fun k u => u = ciphering s .dec (9 - k) (decAfter ws.toList b (10 - k)) k)
    ⟨_, step_decrypt ho hk hW, by rw [hdin]⟩ ?_ ?_
  · rintro k u hk rfl
    have hr9 : 9 - k = 9 - (k + 1) + 1 := by omega
    have hr10 : 10 - k = 10 - (k + 1) + 1 := by omega
    rw [hr9, hr10]
    refine ⟨_, step_decrypting hu hr hW (by omega), ?_⟩
    rw [decAfter_of_lt _ _ (show 10 - (k + 1) < 10 by omega), show 9 - (k + 1) + 1 = 10 - (k + 1) by omega]
  · rintro u rfl
    exact ⟨_, step_decrypting_last hu hr hW, rfl⟩

/-- Settles O55. The array in flight is DEC_BLOCK's own state after as many round steps (direct form, R172). -/
theorem decryptRunsDecBlock : Obligations.DecryptRunsDecBlock := by
  intro s ws b hold hp hu hk hW h hr
  obtain ⟨⟨t, ht, rfl⟩, hmid⟩ := runSteps_decrypt hp hu hk hW h hr
  refine ⟨⟨_, ht, rfl, rfl, rfl, rfl, hk, rfl⟩, fun k h1 hk => ?_⟩
  obtain ⟨u, hu', rfl⟩ := hmid k h1 hk
  exact ⟨_, hu', rfl, rfl⟩

end Cipher

/-! ### A key and then a block (R240) -/

section Both

variable {s : State}

/-- A held offer waits. -/
theorem waitedHost_held {d : HostDrive} (hv : d.cmdValid = true) (hh : d.hold = true) (l : List HostDrive) :
    waitedHost (d :: l) = d :: l := by
  simp [waitedHost, hv, hh]

theorem holds_keyExpand {key : Block} {W : KeyStore} (h : ScheduleUpTo key 44 W) :
    ∃ ws : Vector Word 44, ws.toList = keyExpand key ∧ Holds W ws := by
  refine ⟨⟨(keyExpand key).toArray, length_keyExpand key⟩, rfl, fun i => ?_⟩
  rw [getElem_eq_iff_getElem?, h.getElem? i.isLt, List.getD_eq_getElem _ _ ((length_keyExpand key).symm ▸ i.isLt)]
  simp

/-- Settles O56. The held ENCRYPT is still offered when the expansion ends, and the schedule it then finds is that of the
key. -/
theorem keyThenEncryptUsesKey : Obligations.KeyThenEncryptUsesKey := by
  intro s key b hold rest hp hu hhost hr
  obtain ⟨⟨t, ht, W, hW, rfl⟩, -⟩ := runSteps_keyLoad (key := key) (hold := hold) hp hu (by rw [State.ports, hhost]; rfl) hr
  have hheld : waitedHost^[40] s.host.tail = s.host.tail :=
    Function.iterate_fixed (by rw [hhost]; exact waitedHost_held rfl rfl rest) 40
  have hhost' : (expanded s W).host = s.host.tail := by rw [← hheld, expanded]
  have hports : (expanded s W).ports = validOffer 0x2 b true := by
    rw [State.ports, hhost', hhost]
    rfl
  obtain ⟨ws, hws, hholds⟩ := holds_keyExpand hW
  obtain ⟨⟨t, ht', rfl⟩, -⟩ :=
    runSteps_encrypt (s := expanded s W) rfl hu rfl hholds hports (hr.of_tail hhost')
  exact ⟨_, by rw [runSteps_add 41 11, ht, andThen_next, ht'], rfl, by rw [← hws]; rfl⟩

end Both

/-! ### The steps left (R178) -/

section Left

variable {s t : State} {r : BitVec 6}

/-- R178: the number of steps that a command in flight has left. -/
def stepsLeft (p : Phase) (r : BitVec 6) : Nat :=
  match p with
  | .idle => 0
  | .keyexp => 44 - r.toNat
  | .enc => 11 - r.toNat
  | .dec => r.toNat + 1

/-- Every row of ADVANCE either has one step fewer left, or is the last and answers OK. -/
theorem AdvanceRow.one_step_less (h : AdvanceRow s r t) :
    (∃ r', t.ctr = some r' ∧ stepsLeft s.phase r = stepsLeft t.phase r' + 1) ∨
    (stepsLeft s.phase r = 1 ∧ t.phase = .idle ∧ ∃ a, t.rsp = some a ∧ a.status = .ok) := by
  cases h with
  | kexpStep hp h4 h42 =>
    refine .inl ⟨_, rfl, ?_⟩
    simp only [State.writeW_phase, hp, stepsLeft, ctr_succ_toNat (show r.toNat ≤ 62 by omega)]
    omega
  | kexpFinal hp h43 => exact .inr ⟨by rw [hp, stepsLeft, h43], rfl, _, rfl, rfl⟩
  | encRound hp h1 h9 =>
    refine .inl ⟨_, rfl, ?_⟩
    simp only [hp, stepsLeft, ctr_succ_toNat (show r.toNat ≤ 62 by omega)]
    omega
  | encFinal hp h10 => exact .inr ⟨by rw [hp, stepsLeft, h10], rfl, _, rfl, rfl⟩
  | decRound hp h1 h9 =>
    refine .inl ⟨_, rfl, ?_⟩
    simp only [hp, stepsLeft, ctr_pred_toNat h1]
    omega
  | decFinal hp h0 => exact .inr ⟨by rw [hp, stepsLeft, h0], rfl, _, rfl, rfl⟩

/-- A command in flight runs to its end in as many steps as it has left. -/
theorem runSteps_stepsLeft {n : Nat} (hn : stepsLeft s.phase r = n) (hi : Inv s) (hr : NoReset s) (hc : s.ctr = some r) :
    ∃ t, runSteps n s = .next t ∧ t.phase = .idle ∧ ∃ a, t.rsp = some a ∧ a.status = .ok := by
  induction n generalizing s r with
  | zero =>
    obtain ⟨t, hrow, -⟩ := hi.step_advance hr.ports hc
    rcases hrow.one_step_less with ⟨r', -, h⟩ | ⟨h, -⟩ <;> omega
  | succ n ih =>
    obtain ⟨t, hrow, hstep⟩ := hi.step_advance hr.ports hc
    rw [runSteps_succ_of_next n hstep]
    have hr' : NoReset { t with host := waitedHost t.host } := hr.of_waited (by
      rw [advance_host ((advance_eq_next hc).mpr hrow)])
    rcases hrow.one_step_less with ⟨r', hc', h⟩ | ⟨h, hend⟩
    · exact ih (s := { t with host := waitedHost t.host }) (by rw [hn] at h; exact (Nat.succ.inj h).symm)
        ((hi.of_advance hc hrow).with_host _) hr' hc'
    · obtain rfl : n = 0 := by omega
      exact ⟨_, rfl, hend⟩

/-- Settles O59. The three counts are the steps left, which every step takes down by one until the last answers OK. -/
theorem commandInFlightEnds : Obligations.CommandInFlightEnds :=
  fun _ _ hi hr hc => runSteps_stepsLeft rfl hi hr hc

end Left

end Sys2Proof.Machine
end

section
/-! PROOFS. The control part of the state evolves by itself (R243): what a step makes of it is a function of the control part
and of the control part of the drives. -/

namespace Sys2Proof.Machine

open Sys2Proof.Spec

/-! ### The control part -/

/-- Phase, counter, `key_valid`, the status of the response and whether it has data. -/
abbrev Control := Phase × Option (BitVec 6) × Bool × Option (BitVec 3) × Bool

def State.control (s : State) : Control := (s.phase, s.ctr, s.keyValid, s.rspStatus, s.dout.isSome)

/-- What ADVANCE makes of the control part (R177). -/
def advanceControl (p : Phase) (r : BitVec 6) (k : Bool) : Control :=
  match p with
  | .idle => (.idle, none, k, none, false)
  | .keyexp => if r.toNat = 43 then (.idle, none, true, some 0, false) else (.keyexp, some (r + 1), k, none, false)
  | .enc => if r.toNat = 10 then (.idle, none, k, some 0, true) else (.enc, some (r + 1), k, none, false)
  | .dec => if r.toNat = 0 then (.idle, none, k, some 0, true) else (.dec, some (r - 1), k, none, false)

/-- The control part after an answer given at once. -/
def answerControl (k : Bool) (e : Status) : Control := (.idle, none, k, some e.code, false)

/-- The control part after a cipher command with a key and `LEN = len` (R166, R170): an error, or the start of the phase. -/
def cipherControl (p : Phase) (r : BitVec 6) (len : BitVec 16) (k : Bool) : Control :=
  if k = false then answerControl k .noKey
  else if len ≠ 16 then answerControl k .invalidBlockLength
  else (p, some r, k, none, false)

/-- What a command makes of the control part in IDLE (R161 to R170). -/
def commandControl (i : Instr) (k : Bool) : Control :=
  match i with
  | .keyLoad len => if len ≠ 16 then answerControl k .invalidKeyLength else (.keyexp, some 4, false, none, false)
  | .encrypt len => cipherControl .enc 1 len k
  | .decrypt len => cipherControl .dec 9 len k
  | _ => answerControl k .ok

section Steps

variable {s t u : State} {r : BitVec 6} {h l : List HostDrive}

theorem control_waitHost (s : State) : s.waitHost.control = s.control := by
  rw [State.waitHost_eq]
  rfl

theorem sameControl_iff :
    SameControl s t ↔ s.control = t.control ∧ s.host.map HostDrive.control = t.host.map HostDrive.control := by
  constructor
  · rintro ⟨hp, hc, hk, hs, hd, hh⟩
    exact ⟨by rw [State.control, hp, hc, hk, hs, hd]; rfl, hh⟩
  · rintro ⟨h, hh⟩
    obtain ⟨hp, hc, hk, hs, hd⟩ := by simpa only [State.control, Prod.mk.injEq] using h
    exact ⟨hp, hc, hk, hs, hd, hh⟩

theorem control_of_answer (hp : s.phase = .idle) (hc : s.ctr = none) (e : Status) :
    ({ s with rsp := some ⟨e, none⟩ } : State).control = answerControl s.keyValid e := by
  simp [State.control, answerControl, State.rspStatus, State.dout, hp, hc]

theorem AdvanceRow.control_eq (h : AdvanceRow s r t) (hrsp : s.rsp = none) :
    t.control = advanceControl s.phase r s.keyValid := by
  have none_rsp {t : State} (ht : t.rsp = none) : t.control = (t.phase, t.ctr, t.keyValid, none, false) := by
    rw [State.control, State.rspStatus_of_noRsp ht, State.dout_of_noRsp ht]
    rfl
  cases h with
  | kexpStep hp _ h42 => rw [hp, advanceControl, if_neg (by omega), ← hp]; exact none_rsp hrsp
  | kexpFinal hp h43 => rw [hp, advanceControl, if_pos h43]; rfl
  | encRound hp _ h9 => rw [hp, advanceControl, if_neg (by omega)]; exact none_rsp hrsp
  | encFinal hp h10 => rw [hp, advanceControl, if_pos h10]; rfl
  | decRound hp h1 _ => rw [hp, advanceControl, if_neg (by omega)]; exact none_rsp hrsp
  | decFinal hp h0 => rw [hp, advanceControl, if_pos h0]; rfl

/-- The two cipher commands check alike (R206) and start alike. -/
theorem control_of_cipher {i : Instr} {p : Phase} {len : BitVec 16} (hp : s.phase = .idle) (hc : s.ctr = none)
    (he : exec i s = .next t) (noKey : s.keyValid = false → exec i s = .next { s with rsp := some ⟨.noKey, none⟩ })
    (badLength : s.keyValid = true → len ≠ 16 → exec i s = .next { s with rsp := some ⟨.invalidBlockLength, none⟩ })
    (start : s.keyValid = true → len = 16 → ∃ a, t = { s with st := a, ctr := some r, phase := p, rsp := none }) :
    t.control = cipherControl p r len s.keyValid := by
  unfold cipherControl
  split_ifs with hk hl
  · cases (noKey hk).symm.trans he
    exact control_of_answer hp hc .noKey
  · cases (badLength (by simpa using hk) hl).symm.trans he
    exact control_of_answer hp hc .invalidBlockLength
  · obtain ⟨a, rfl⟩ := start (by simpa using hk) (not_not.mp hl)
    rfl

theorem control_of_command {cw : BitVec 32} {i : Instr} (hp : s.phase = .idle) (hc : s.ctr = none)
    (hd : decodeCmd cw = .ok i) (he : exec i s = .next t) : t.control = commandControl i s.keyValid := by
  rcases decodeCmd_cases hd with rfl | rfl | rfl | rfl
  · cases (exec_nop_idle hp).symm.trans he
    exact control_of_answer hp hc .ok
  · by_cases hl : cmdLen cw = 16
    · rw [hl, exec_keyLoad_valid hp, keyLoadStart_eq, next_eq_next] at he
      rw [he, hl]
      rfl
    · cases (exec_keyLoad_badLength hp hl).symm.trans he
      rw [control_of_answer hp hc, commandControl, if_pos hl]
  · refine control_of_cipher hp hc he (exec_encrypt_noKey hp) (exec_encrypt_badLength hp) fun hk hl => ?_
    rw [hl, exec_encrypt_valid hp hk] at he
    obtain ⟨ks, -, rfl⟩ := encStart_eq_next.mp he
    exact ⟨_, rfl⟩
  · refine control_of_cipher hp hc he (exec_decrypt_noKey hp) (exec_decrypt_badLength hp) fun hk hl => ?_
    rw [hl, exec_decrypt_valid hp hk] at he
    obtain ⟨ks, -, rfl⟩ := decStart_eq_next.mp he
    exact ⟨_, rfl⟩

/-! ### Two cores with the same control part -/

theorem headD_control (e : h.map HostDrive.control = l.map HostDrive.control) :
    (h.headD HostDrive.quiet).control = (l.headD HostDrive.quiet).control := by
  rw [← List.headD_map (f := HostDrive.control), ← List.headD_map (f := HostDrive.control), e]

theorem tail_control (e : h.map HostDrive.control = l.map HostDrive.control) :
    h.tail.map HostDrive.control = l.tail.map HostDrive.control := by
  rw [List.map_tail, List.map_tail, e]

theorem waitedHost_control (e : h.map HostDrive.control = l.map HostDrive.control) :
    (waitedHost h).map HostDrive.control = (waitedHost l).map HostDrive.control := by
  have hd := headD_control e
  simp only [HostDrive.control, Prod.mk.injEq] at hd
  obtain ⟨-, hv, -, hh⟩ := hd
  unfold waitedHost
  rw [hv, hh]
  split
  · exact e
  · exact tail_control e

/-- One step of two such cores. -/
theorem SameControl.step (hc : SameControl s t) (hs : Inv s) (ht : Inv t) (h : step s = .next u) :
    ∃ v, Machine.step t = .next v ∧ SameControl u v := by
  obtain ⟨hcontrol, hhost⟩ := sameControl_iff.mp hc
  have hports : s.ports.control = t.ports.control := headD_control hhost
  simp only [HostDrive.control, Prod.mk.injEq] at hports
  obtain ⟨hrst, hvalid, hword, -⟩ := hports
  have idle (hp : s.phase = .idle) : t.phase = .idle := hc.phase_eq ▸ hp
  rcases step_cases hs.no_uop h with ⟨hr, rfl⟩ | ⟨hr, hp, w, hw, rfl⟩ | ⟨hr, hp, hv, i, w, hd, he, rfl⟩ |
    ⟨hr, hp, hv, ⟨e, he⟩, rfl⟩ | ⟨hr, hp, hv, rfl⟩
  · exact ⟨_, step_reset (hrst ▸ hr), sameControl_iff.mpr ⟨rfl, tail_control hhost⟩⟩
  · obtain ⟨r, hcs⟩ := hs.ctr_of_busy hp
    obtain ⟨v, hrow, hstep⟩ := ht.step_advance (hrst ▸ hr) (hc.ctr_eq ▸ hcs)
    have hrow' := (advance_eq_next hcs).mp hw
    refine ⟨_, hstep, sameControl_iff.mpr ⟨?_, ?_⟩⟩
    · rw [control_waitHost, hrow'.control_eq (hs.busy_rsp hp), hc.phase_eq, hc.key_eq]
      exact (hrow.control_eq (ht.busy_rsp (hc.phase_eq ▸ hp))).symm
    · rw [State.waitHost_host, advance_host hw, advance_host ((advance_eq_next (hc.ctr_eq ▸ hcs)).mpr hrow)]
      exact waitedHost_control hhost
  · have ho : Offered t s.ports.cmdWord := ⟨⟨hrst ▸ hr, ht.no_uop⟩, idle hp, hvalid ▸ hv, hword.symm⟩
    obtain ⟨v, hv'⟩ := ht.exec_progress hd
    refine ⟨_, step_of_exec ho hd hv', sameControl_iff.mpr ⟨?_, ?_⟩⟩
    · calc w.control
        _ = commandControl i s.keyValid := control_of_command hp (hs.idle_iff.mp hp) hd he
        _ = commandControl i t.keyValid := by rw [hc.key_eq]
        _ = v.control := (control_of_command (idle hp) (ht.idle_iff.mp (idle hp)) hd hv').symm
    · rw [State.popHost_host, exec_host he, exec_host hv']
      exact tail_control hhost
  · have ho : Offered t s.ports.cmdWord := ⟨⟨hrst ▸ hr, ht.no_uop⟩, idle hp, hvalid ▸ hv, hword.symm⟩
    refine ⟨_, step_of_illegal ho he, sameControl_iff.mpr ⟨?_, tail_control hhost⟩⟩
    calc ({ s with rsp := some ⟨.illegalCommand, none⟩ } : State).control
      _ = answerControl s.keyValid .illegalCommand := control_of_answer hp (hs.idle_iff.mp hp) _
      _ = answerControl t.keyValid .illegalCommand := by rw [hc.key_eq]
      _ = _ := (control_of_answer (idle hp) (ht.idle_iff.mp (idle hp)) _).symm
  · exact ⟨_, step_wait (hrst ▸ hr) ht.no_uop (idle hp) (hvalid ▸ hv), sameControl_iff.mpr ⟨hcontrol, tail_control hhost⟩⟩

end Steps

/-- Settles O60. The next control part is a function of the control part alone, step by step. -/
theorem sequencingIgnoresData : Obligations.SequencingIgnoresData := by
  intro k
  induction k with
  | zero => exact fun s t s' _ _ hc h => ⟨t, rfl, by cases h; exact hc⟩
  | succ k ih =>
    intro s t s' hs ht hc h
    rw [runSteps_succ] at h
    obtain ⟨u, hu, hrest⟩ := andThen_eq_next.mp h
    obtain ⟨v, hv, huv⟩ := hc.step hs ht hu
    obtain ⟨t', ht', hc'⟩ := ih u v s' (stepKeepsInvariants _ _ hs hu) (stepKeepsInvariants _ _ ht hv) huv hrest
    exact ⟨t', by rw [runSteps_succ_of_next k hv, ht'], hc'⟩

end Sys2Proof.Machine
end

section
/-! PROOFS. GFMUL as a field multiplication (R102): a map that is linear and commutes with doubling is fixed by its value at 1,
and multiplication by a byte is such a map in either operand. -/

namespace Sys2Proof.Machine

open Sys2Proof.Spec

/-! ### Linear maps of bytes -/

section Linear

variable {f g : Byte → Byte}

/-- `f` distributes over xor. -/
def XorLinear (f : Byte → Byte) : Prop := ∀ a b, f (a ^^^ b) = f a ^^^ f b

theorem XorLinear.zero (hf : XorLinear f) : f 0 = 0 :=
  (hf 0 0).trans BitVec.xor_self

/-- A linear map is fixed by its values at the powers of `x`. -/
theorem XorLinear.eq_of_powers (hf : XorLinear f) (hg : XorLinear g)
    (h : ∀ k : Fin 8, f ((1 : Byte) <<< k.val) = g ((1 : Byte) <<< k.val)) (b : Byte) : f b = g b := by
  have key (n : Nat) : ∀ k, k + n = 8 → ∀ b : Byte, f (b <<< k) = g (b <<< k) := by
    induction n with
    | zero =>
      rintro k rfl b
      rw [BitVec.shiftLeft_eq_zero (by omega)]
      exact hf.zero.trans hg.zero.symm
    | succ n ih =>
      intro k hk b
      rw [← lowBit_xor_rest_shiftLeft b k, hf, hg, ih (k + 1) (by omega)]
      split
      · rw [h ⟨k, by omega⟩]
      · rw [hf.zero, hg.zero]
  simpa using key 8 0 rfl b

/-- `f` is linear and commutes with doubling: it is linear over the polynomials in `x`. -/
structure XLinear (f : Byte → Byte) : Prop where
  xor : XorLinear f
  double : ∀ a, f (xtime a) = xtime (f a)

/-- Such a map is fixed by its value at 1, the powers of `x` being doublings of it. -/
theorem XLinear.eq_of_one (hf : XLinear f) (hg : XLinear g) (h : f 1 = g 1) (b : Byte) : f b = g b := by
  refine hf.xor.eq_of_powers hg.xor (fun ⟨k, hk⟩ => ?_) b
  induction k with
  | zero => exact h
  | succ k ih => rw [← xtime_one_shiftLeft ⟨k, by omega⟩, hf.double, hg.double, ih (by omega)]

theorem xlinear_id : XLinear id := ⟨fun _ _ => rfl, fun _ => rfl⟩

theorem xlinear_xtime : XLinear xtime := ⟨xtime_xor, fun _ => rfl⟩

theorem XLinear.comp (hf : XLinear f) (hg : XLinear g) : XLinear (f ∘ g) :=
  ⟨fun a b => by simp only [Function.comp, hg.xor a b, hf.xor (g a)],
    fun a => by simp only [Function.comp, hg.double, hf.double]⟩

end Linear

/-! ### The field laws -/

section Field

variable (a b c : Byte)

theorem gfMulLoop_xtime (n : Nat) (acc a b : Byte) : gfMulLoop n (xtime acc) (xtime a) b = xtime (gfMulLoop n acc a b) := by
  induction n generalizing acc a b with
  | zero => rfl
  | succ n ih =>
    rw [gfMulLoop, gfMulLoop, ← ih]
    split
    · rw [xtime_xor]
    · rfl

theorem xlinear_gfmul_left : XLinear (gfmul · b) :=
  ⟨fun a₁ a₂ => gfmul_xor_left a₁ a₂ b, fun a => gfMulLoop_xtime 8 0 a b⟩

@[simp] theorem gfmul_one_right : gfmul a 1 = a :=
  (xlinear_gfmul_left 1).eq_of_one xlinear_id (gfmul_one_left 1) a

theorem gfmul_xtime_right : gfmul a (xtime b) = xtime (gfmul a b) :=
  (xlinear_gfmul_left (xtime b)).eq_of_one (xlinear_xtime.comp (xlinear_gfmul_left b))
    (by simp only [Function.comp, gfmul_one_left]) a

theorem xlinear_gfmul_right : XLinear (gfmul a) :=
  ⟨gfmul_xor_right a, gfmul_xtime_right a⟩

theorem gfmul_comm : gfmul a b = gfmul b a :=
  (xlinear_gfmul_left b).eq_of_one (xlinear_gfmul_right b) (by rw [gfmul_one_left, gfmul_one_right]) a

theorem gfmul_assoc : gfmul (gfmul a b) c = gfmul a (gfmul b c) :=
  ((xlinear_gfmul_left c).comp (xlinear_gfmul_left b)).eq_of_one (xlinear_gfmul_left (gfmul b c))
    (by simp only [Function.comp, gfmul_one_left]) a

@[simp] theorem gfmul_zero_right : gfmul a 0 = 0 := (xlinear_gfmul_right a).xor.zero

/-- R102: doubling is GFMUL by `0x02`. -/
theorem gfmul_two_left : gfmul 0x02 a = xtime a :=
  (xlinear_gfmul_right 0x02).eq_of_one xlinear_xtime (by decide) a

end Field

/-! ### The product of polynomials -/

section Polynomials

variable {w : Nat}

/-- A fold of steps that add is itself additive. -/
theorem foldl_xor {F G H : BitVec w → Nat → BitVec w} (h : ∀ x y k, H (x ^^^ y) k = F x k ^^^ G y k) (l : List Nat)
    (x y : BitVec w) : l.foldl H (x ^^^ y) = l.foldl F x ^^^ l.foldl G y := by
  induction l generalizing x y with
  | nil => rfl
  | cons k l ih => simp only [List.foldl_cons, h, ih]

theorem polyMul_xor_left (a₁ a₂ b : Byte) : polyMul (a₁ ^^^ a₂) b = polyMul a₁ b ^^^ polyMul a₂ b := by
  refine foldl_xor (fun x y k => ?_) (List.range 8) 0 0
  split
  · rw [BitVec.setWidth_xor, BitVec.shiftLeft_xor_distrib]
    ac_rfl
  · rfl

/-- Where both bits are set the summand cancels. -/
theorem add_selected (p q : Bool) (x y z : BitVec w) :
    (if p ^^ q then x ^^^ y ^^^ z else x ^^^ y) = (if p then x ^^^ z else x) ^^^ (if q then y ^^^ z else y) := by
  cases p <;> cases q
  · rfl
  · exact BitVec.xor_assoc x y z
  · exact (BitVec.xor_assoc x y z).trans ((congrArg (x ^^^ ·) (BitVec.xor_comm y z)).trans (BitVec.xor_assoc x z y).symm)
  · have hz : x ^^^ z ^^^ (y ^^^ z) = x ^^^ y ^^^ (z ^^^ z) := by ac_rfl
    simpa using hz.symm

theorem polyMul_xor_right (a b₁ b₂ : Byte) : polyMul a (b₁ ^^^ b₂) = polyMul a b₁ ^^^ polyMul a b₂ := by
  refine foldl_xor (fun x y k => ?_) (List.range 8) 0 0
  rw [BitVec.getLsbD_xor, add_selected]

theorem polyMod_xor (p q : BitVec 16) : polyMod (p ^^^ q) = polyMod p ^^^ polyMod q := by
  rw [polyMod, foldl_xor fun x y k => ?_, BitVec.setWidth_xor]
  · rfl
  · rw [BitVec.getLsbD_xor, add_selected]

/-- R102: both products are linear in both operands, and they agree on the powers of `x`. -/
theorem gfmul_eq_polyMod (a b : Byte) : gfmul a b = polyMod (polyMul a b) := by
  have powers : ∀ i j : Fin 8, gfmul ((1 : Byte) <<< i.val) ((1 : Byte) <<< j.val) =
      polyMod (polyMul ((1 : Byte) <<< i.val) ((1 : Byte) <<< j.val)) := by decide +kernel
  have left (b : Byte) : XorLinear fun a => polyMod (polyMul a b) := fun a₁ a₂ => by
    simp only [polyMul_xor_left, polyMod_xor]
  have right (a : Byte) : XorLinear fun b => polyMod (polyMul a b) := fun b₁ b₂ => by
    simp only [polyMul_xor_right, polyMod_xor]
  refine (xlinear_gfmul_left b).xor.eq_of_powers (left b) (fun i => ?_) a
  exact (xlinear_gfmul_right _).xor.eq_of_powers (right _) (powers i) b

end Polynomials

end Sys2Proof.Machine
end

section
/-! PROOFS. The tables (R50 to R54): the S-box is the affine map of the inverse, so the inverse can be read off it. -/

namespace Sys2Proof.Machine

open Sys2Proof.Spec

/-- The map that undoes R53's. -/
def affineInverse (y : Byte) : Byte := y.rotateLeft 1 ^^^ y.rotateLeft 3 ^^^ y.rotateLeft 6 ^^^ 0x05

theorem affine_affineInverse : ∀ y : Byte, affine (affineInverse y) = y := by decide +kernel

/-- The inverse of a byte, read off the S-box. -/
def tableInverse (x : Byte) : Byte := affineInverse (sbox x)

theorem gfmul_tableInverse : ∀ x : Byte, x ≠ 0 → gfmul x (tableInverse x) = 1 := by decide +kernel

/-- In an associative and commutative multiplication two inverses of one byte are the same. -/
theorem inverse_unique {x y z : Byte} (hy : gfmul x y = 1) (hz : gfmul x z = 1) : y = z := by
  calc y
    _ = gfmul (gfmul x z) y := by rw [hz, gfmul_one_left]
    _ = gfmul (gfmul x y) z := by rw [gfmul_assoc, gfmul_comm z y, ← gfmul_assoc]
    _ = z := by rw [hy, gfmul_one_left]

/-- Settles O6: one look at each of the 256 entries; a map with an inverse is a bijection. -/
theorem tablesAreDual : Obligations.TablesAreDual := by
  have dual : ∀ x : Byte, invSbox (sbox x) = x ∧ sbox (invSbox x) = x := by decide +kernel
  have noFixed : ∀ x : Byte, sbox x ≠ x := by decide +kernel
  exact ⟨dual, ⟨Function.LeftInverse.injective fun x => (dual x).1, fun y => ⟨_, (dual y).2⟩⟩, noFixed⟩

/-- Settles O7. The table entry is the affine map of what the table gives as inverse, and no other byte is the inverse. -/
theorem sboxIsAffineOfInverse : Obligations.SboxIsAffineOfInverse := by
  refine ⟨by decide, fun x hx => ⟨tableInverse x, ⟨gfmul_tableInverse x hx, (affine_affineInverse _).symm⟩, ?_⟩⟩
  exact fun y hy => inverse_unique hy.1 (gfmul_tableInverse x hx)

/-- Settles O8: ten closed entries (R52). -/
theorem roundConstantsDouble : Obligations.RoundConstantsDouble := by
  unfold Obligations.RoundConstantsDouble
  decide

/-- Settles O10. The laws are those of maps fixed by their value at 1; the inverses are read off the S-box. -/
theorem fieldIsPolynomialProduct : Obligations.FieldIsPolynomialProduct :=
  ⟨gfmul_eq_polyMod, gfmul_comm, gfmul_assoc,
    fun a ha => ⟨tableInverse a, gfmul_tableInverse a ha, fun _ hy => inverse_unique hy (gfmul_tableInverse a ha)⟩,
    fun a => ⟨gfmul_one_right a, gfmul_zero_right a⟩, gfmul_two_left, by decide +kernel⟩

end Sys2Proof.Machine
end

section
/-! PROOFS. The state transforms as functions: which undo each other and which commute (R136, R139, R142), and the same of
their instructions. -/

namespace Sys2Proof.Machine

open Sys2Proof.Spec

/-! ### The functions -/

section Functions

variable (a : StateArr)

@[simp] theorem invSbox_sbox (x : Byte) : invSbox (sbox x) = x := (tablesAreDual.1 x).1
@[simp] theorem sbox_invSbox (x : Byte) : sbox (invSbox x) = x := (tablesAreDual.1 x).2

@[simp] theorem invSubBytes_subBytes : invSubBytes (subBytes a) = a := StateArr.ext_byteAt fun r c => by simp
@[simp] theorem subBytes_invSubBytes : subBytes (invSubBytes a) = a := StateArr.ext_byteAt fun r c => by simp
@[simp] theorem invShiftRows_shiftRows : invShiftRows (shiftRows a) = a := StateArr.ext_byteAt fun r c => by simp
@[simp] theorem shiftRows_invShiftRows : shiftRows (invShiftRows a) = a := StateArr.ext_byteAt fun r c => by simp

/-- A shift moves bytes and a substitution changes each where it is. -/
theorem subBytes_shiftRows : subBytes (shiftRows a) = shiftRows (subBytes a) := StateArr.ext_byteAt fun r c => by simp
theorem invSubBytes_shiftRows : invSubBytes (shiftRows a) = shiftRows (invSubBytes a) :=
  StateArr.ext_byteAt fun r c => by simp
theorem subBytes_invShiftRows : subBytes (invShiftRows a) = invShiftRows (subBytes a) :=
  StateArr.ext_byteAt fun r c => by simp
theorem invSubBytes_invShiftRows : invSubBytes (invShiftRows a) = invShiftRows (invSubBytes a) :=
  StateArr.ext_byteAt fun r c => by simp

/-- The product of matrices is associative, as GFMUL is and as it distributes over xor. -/
theorem mulMatrix_mulMatrix (m n a : StateArr) : mulMatrix m (mulMatrix n a) = mulMatrix (mulMatrix m n) a := by
  refine StateArr.ext_byteAt fun r c => ?_
  simp only [byteAt_mulMatrix, gfmul_xor_left, gfmul_xor_right, gfmul_assoc]
  ac_rfl

/-- The unit matrix. -/
def unitMatrix : StateArr := StateArr.build fun r c => if r = c then 1 else 0

@[simp] theorem byteAt_unitMatrix (r c : Fin 4) : unitMatrix.byteAt r c = if r = c then 1 else 0 :=
  StateArr.byteAt_build _ r c

theorem gfmul_ite_one (p : Prop) [Decidable p] (x : Byte) : gfmul (if p then 1 else 0) x = if p then x else 0 := by
  split
  · exact gfmul_one_left x
  · exact gfmul_zero_left x

theorem mulMatrix_unitMatrix : mulMatrix unitMatrix a = a := by
  refine StateArr.ext_byteAt fun r c => ?_
  simp only [byteAt_mulMatrix, byteAt_unitMatrix, gfmul_ite_one]
  fin_cases r <;> simp

/-- R142: the two matrices are inverse, both ways. -/
theorem mixMatrix_mul_invMixMatrix : mulMatrix mixMatrix invMixMatrix = unitMatrix := by decide +kernel
theorem invMixMatrix_mul_mixMatrix : mulMatrix invMixMatrix mixMatrix = unitMatrix := by decide +kernel

@[simp] theorem invMixColumns_mixColumns : invMixColumns (mixColumns a) = a := by
  rw [invMixColumns, mixColumns, mulMatrix_mulMatrix, invMixMatrix_mul_mixMatrix, mulMatrix_unitMatrix]

@[simp] theorem mixColumns_invMixColumns : mixColumns (invMixColumns a) = a := by
  rw [invMixColumns, mixColumns, mulMatrix_mulMatrix, mixMatrix_mul_invMixMatrix, mulMatrix_unitMatrix]

/-- A product with a matrix is linear in the array. -/
theorem byteAt_mulMatrix_xor (m : StateArr) {a b d : StateArr} (h : ∀ r c, d.byteAt r c = a.byteAt r c ^^^ b.byteAt r c)
    (r c : Fin 4) : (mulMatrix m d).byteAt r c = (mulMatrix m a).byteAt r c ^^^ (mulMatrix m b).byteAt r c := by
  simp only [byteAt_mulMatrix, h, gfmul_xor_right]
  ac_rfl

end Functions

/-! ### The instructions -/

section Instructions

variable {f g : StateArr → StateArr} {s t : State}

/-- A micro-operation on `st` is undone by the one whose function undoes its own. -/
theorem mapSt_of_leftInverse (h : Function.LeftInverse g f) (hs : mapSt f s = .next t) : mapSt g t = .next s := by
  obtain ⟨a, ha, rfl⟩ := mapSt_eq_next.mp hs
  rw [mapSt_of_some rfl, h a, State.set_st_self ha]

/-- Two micro-operations on `st` commute as their functions do. -/
theorem mapSt_mapSt_comm (h : Function.Commute f g) (s : State) :
    andThen (mapSt f s) (mapSt g) = andThen (mapSt g s) (mapSt f) := by
  cases hs : s.st with
  | none =>
    rw [mapSt_of_none hs, mapSt_of_none hs]
    rfl
  | some a =>
    rw [mapSt_of_some hs, mapSt_of_some hs, andThen_next, andThen_next, mapSt_of_some rfl, mapSt_of_some rfl, h a]

theorem runInstrs_pair (i j : Instr) (s : State) : runInstrs [i, j] s = andThen (exec i s) (exec j) := by
  simp only [runInstrs]
  exact congrArg _ (funext fun u => runInstrs_singleton j u)

/-- Settles O25. The tables undo each other at every byte (R54). -/
theorem subBytesInverses : Obligations.SubBytesInverses :=
  fun _ _ => ⟨mapSt_of_leftInverse invSubBytes_subBytes, mapSt_of_leftInverse subBytes_invSubBytes⟩

/-- Settles O26. Rotating columns back undoes the rotation, and a substitution does not look at columns. -/
theorem shiftRowsInversesAndCommute : Obligations.ShiftRowsInversesAndCommute := by
  refine ⟨fun _ _ => ⟨mapSt_of_leftInverse invShiftRows_shiftRows, mapSt_of_leftInverse shiftRows_invShiftRows⟩,
    fun s => ?_⟩
  simp only [runInstrs_pair]
  exact ⟨mapSt_mapSt_comm (fun a => (subBytes_shiftRows a).symm) s,
    mapSt_mapSt_comm (fun a => (invSubBytes_shiftRows a).symm) s,
    mapSt_mapSt_comm (fun a => (subBytes_invShiftRows a).symm) s,
    mapSt_mapSt_comm (fun a => (invSubBytes_invShiftRows a).symm) s⟩

/-- Settles O27. The matrices are inverse, and products of matrices are associative and linear. -/
theorem mixColumnsInversesAndLinear : Obligations.MixColumnsInversesAndLinear := by
  refine ⟨fun _ _ => ⟨mapSt_of_leftInverse invMixColumns_mixColumns, mapSt_of_leftInverse mixColumns_invMixColumns⟩,
    fun r c => ?_, fun a b d h r c => ⟨byteAt_mulMatrix_xor mixMatrix h r c, byteAt_mulMatrix_xor invMixMatrix h r c⟩⟩
  rw [mixMatrix_mul_invMixMatrix]
  exact byteAt_unitMatrix r c

/-- R131, a byte read at its index in the block. -/
theorem extract_stateToBlock (a : StateArr) {r c : Fin 4} {i : Nat} (hr : r.val = i % 4) (hc : c.val = i / 4) :
    (stateToBlock a).extractLsb' (120 - 8 * i) 8 = a.byteAt r c := by
  have hi : 4 * c.val + r.val = i := by omega
  rw [← portByte_stateToBlock a r c, hi, portByte]

theorem exec_storeState {a : StateArr} (h : s.st = some a) :
    exec .storeState s = .next { s with out := some (.block (stateToBlock a)) } :=
  execStoreState_eq_next.mpr ⟨a, h, rfl⟩

/-- Settles O16. Byte `4c + r` of the packed block is the byte at row `r`, column `c`. -/
theorem storeStateSerializes : Obligations.StoreStateSerializes :=
  fun _ a ha => ⟨stateToBlock a, exec_storeState ha, fun _ _ _ hr hc => extract_stateToBlock a hr hc⟩

/-- Settles O17. Building the array of a block and packing the array into a block undo each other. -/
theorem storeUndoesLoad : Obligations.StoreUndoesLoad := by
  constructor
  · intro s t h
    obtain rfl : t = { s with st := some (blockToState s.din) } := next_eq_next.mp h
    rw [exec_storeState rfl, stateToBlock_blockToState]
  · intro s a b ha h hdin
    rw [exec_storeState ha] at h
    have hb : stateToBlock a = b := by simpa using h
    have hload : blockToState s.din = a := by rw [hdin, ← hb, blockToState_stateToBlock]
    calc exec .loadState s
      _ = .next { s with st := some (blockToState s.din) } := rfl
      _ = .next s := by rw [hload, State.set_st_self ha]

/-- Settles O23. Each of them reads `st` first (log 14). -/
theorem stateReadsStopOnNone : Obligations.StateReadsStopOnNone := by
  intro s i hi hs
  cases i
  case addRoundKey r => exact (if_pos (by simpa [readsState] using hi)).trans (withSt_of_none hs _)
  case subBytes => exact mapSt_of_none hs _
  case invSubBytes => exact mapSt_of_none hs _
  case shiftRows => exact mapSt_of_none hs _
  case invShiftRows => exact mapSt_of_none hs _
  case mixColumns => exact mapSt_of_none hs _
  case invMixColumns => exact mapSt_of_none hs _
  case storeState => exact withSt_of_none hs _
  all_goals cases hi

end Instructions

end Sys2Proof.Machine
end

section
/-! PROOFS. KEXP_WORD and the three functions by bytes (R100, R110, R111, R113), and where the reads of `W` stop (R208). -/

namespace Sys2Proof.Machine

open Sys2Proof.Spec

/-! ### Words by bytes -/

/-- R110: the rotation by bytes. -/
theorem rotword_eq (w : Word) : rotword w = packWord (wordByte w 1) (wordByte w 2) (wordByte w 3) (wordByte w 0) := by
  apply BitVec.eq_of_getLsbD_eq
  intro i hi
  simp only [rotword, wordByte, packWord, BitVec.getLsbD_extractLsb', BitVec.getLsbD_append]
  interval_cases i <;> simp

theorem rotword_packWord (b0 b1 b2 b3 : Byte) : rotword (packWord b0 b1 b2 b3) = packWord b1 b2 b3 b0 := by
  simp [rotword_eq, wordByte_packWord]

theorem subword_packWord (b0 b1 b2 b3 : Byte) :
    subword (packWord b0 b1 b2 b3) = packWord (sbox b0) (sbox b1) (sbox b2) (sbox b3) := by
  simp [subword, wordByte_packWord]

/-- Settles O11. Each result stands in `out` (log 4) of the state they run in, alone (log 8); it is given by bytes here. -/
theorem functionsGiveTheirResult : Obligations.FunctionsGiveTheirResult := by
  refine ⟨fun s a b => ?_, fun s b0 b1 b2 b3 => ?_, fun s b0 b1 b2 b3 => ?_⟩
  · rw [exec, execGfMul, gfmul_eq_polyMod]
  · exact congrArg (fun w => Host.Outcome.next { s with out := some (.word w) }) (rotword_packWord b0 b1 b2 b3)
  · exact congrArg (fun w => Host.Outcome.next { s with out := some (.word w) }) (subword_packWord b0 b1 b2 b3)

/-! ### KEXP_WORD -/

theorem kexpTemp_of_not_multiple {i : Nat} (h : i % 4 ≠ 0) (t : Word) : kexpTemp i t = t := if_neg h

/-- R113 at a multiple of 4, by the bytes of `t`. -/
theorem kexpTemp_of_multiple {i : Nat} (h : i % 4 = 0) (t : Word) :
    kexpTemp i t = rcon (i / 4 - 1) ^^^
      (sbox (t.extractLsb' 16 8) ++ sbox (t.extractLsb' 8 8) ++ sbox (t.extractLsb' 0 8) ++ sbox (t.extractLsb' 24 8)) := by
  rw [kexpTemp, if_pos h, rotword_eq, subword_packWord, BitVec.xor_comm]
  rfl

/-- Settles O13. The two reads find `t` and `p`; the write changes its own cell alone. -/
theorem kexpWordDerivesWord : Obligations.KexpWordDerivesWord := by
  intro s i p t h4 h43 hp ht
  refine ⟨(s.writeW i.toNat (p ^^^ kexpTemp i.toNat t)).W, p ^^^ kexpTemp i.toNat t, execKexpWord_of h4 h43 ht hp, fun k => ?_,
    fun h => by rw [kexpTemp_of_not_multiple h], fun h => by rw [kexpTemp_of_multiple h]⟩
  rw [getElem_eq_iff_getElem?, State.writeW_W, getElem?_setW]
  by_cases hk : k.val = i.toNat
  · rw [if_pos ⟨hk.symm, k.isLt⟩, if_pos hk]
  · rw [if_neg (fun h => hk h.1.symm), if_neg hk]
    exact (getElem_eq_iff_getElem? s.W k s.W[k]).mp rfl

/-! ### Where reads of `W` stop -/

section Stops

variable {s : State} {i : Nat}

/-- The outcome is a fault that names a cell of `W` that holds `none`. -/
def StopsAtNone (s : State) (o : Result) : Prop := ∃ k, o = .fault (.noneKeyWord k) ∧ s.W[k]? = some none

/-- A read of a cell stops, or finds a word and what follows stops. -/
theorem stopsAtNone_withW {k : Word → Result} (hi : i < 44) (h : ∀ w, s.W[i]? = some (some w) → StopsAtNone s (k w)) :
    StopsAtNone s (withW i s k) := by
  cases hc : s.W[(⟨i, hi⟩ : Fin 44)] with
  | none =>
    have hnone := (getElem_eq_iff_getElem? s.W ⟨i, hi⟩ none).mp hc
    exact ⟨i, withW_of_none (fun w hw => by rw [hnone] at hw; cases hw) k, hnone⟩
  | some w =>
    have hsome := (getElem_eq_iff_getElem? s.W ⟨i, hi⟩ (some w)).mp hc
    rw [withW_of_some hsome]
    exact h w hsome

/-- Settles O14. Of the cells a form reads one holds none, so not all of them can be passed. -/
theorem keyReadsStopOnNone : Obligations.KeyReadsStopOnNone := by
  refine ⟨fun s i h => if_neg h, fun s r h => if_neg (by omega), fun s i h4 h43 h => ?_, fun s r c hr hst h => ?_⟩
  · change StopsAtNone s (execKexpWord i s)
    rw [execKexpWord, if_pos ⟨h4, h43⟩]
    refine stopsAtNone_withW (by omega) fun u hu => stopsAtNone_withW (by omega) fun p hp => ?_
    rcases h with h | h
    · rw [hu] at h; cases h
    · rw [hp] at h; cases h
  · change StopsAtNone s (execAddRoundKey r s)
    obtain ⟨a, ha⟩ := Option.isSome_iff_exists.mp hst
    rw [execAddRoundKey, if_pos hr, withSt_of_some ha]
    refine stopsAtNone_withW (by omega) fun k0 h0 => stopsAtNone_withW (by omega) fun k1 h1 =>
      stopsAtNone_withW (by omega) fun k2 h2 => stopsAtNone_withW (by omega) fun k3 h3 => ?_
    have all : s.W[4 * r.toNat + c.val]? = some (some (#v[k0, k1, k2, k3][c])) := by
      fin_cases c
      · exact h0
      · exact h1
      · exact h2
      · exact h3
    rw [all] at h
    cases h

end Stops

end Sys2Proof.Machine
end

section
/-! PROOFS. The ciphers undo each other: DEC_BLOCK goes back through the states of ENC_BLOCK (R175, R176). -/

namespace Sys2Proof.Machine

open Sys2Proof.Spec

variable (ws : List Word) (b : Block)

theorem encShifted_succ (r : Nat) : encShifted ws b (r + 1) = shiftRows (subBytes (encState ws b r)) := rfl

/-- R172 undoes R168 between two states after SHIFTROWS. -/
theorem decRoundFn_encShifted (r : Nat) : decRoundFn ws (encShifted ws b (r + 2)) (r + 1) = encShifted ws b (r + 1) := by
  rw [encShifted_succ, encState_succ, decRoundFn, encRoundFn, invShiftRows_shiftRows, invSubBytes_subBytes,
    addRoundKey_addRoundKey, invMixColumns_mixColumns, encShifted_succ]

theorem decAfter_encBlock {r : Nat} (h1 : 1 ≤ r) (h10 : r ≤ 10) : decAfter ws (encBlock ws b) r = encShifted ws b r := by
  induction h10 using Nat.decreasingInduction with
  | self =>
    rw [decAfter_ten, encBlock_eq, blockToState_stateToBlock, addRoundKey_addRoundKey]
    rfl
  | of_succ r hr ih =>
    obtain ⟨r, rfl⟩ := Nat.exists_eq_add_of_le' h1
    rw [decAfter_of_lt _ _ hr, ih (by omega), decRoundFn_encShifted]

/-- Settles O58, downwards from DEC_START, each round step of DEC undoing a round of ENC. -/
theorem decryptRetracesEncrypt : Obligations.DecryptRetracesEncrypt :=
  fun ws b _ h1 h10 => decAfter_encBlock ws b h1 h10

theorem decBlock_encBlock : decBlock ws (encBlock ws b) = b := by
  rw [decBlock_eq, decAfter_encBlock ws b le_rfl (by decide), encShifted_succ, invShiftRows_shiftRows, invSubBytes_subBytes]
  exact (congrArg stateToBlock (addRoundKey_addRoundKey _ _)).trans (stateToBlock_blockToState b)

/-- There are finitely many blocks, so a left inverse is a right inverse. -/
theorem encBlock_decBlock : encBlock ws (decBlock ws b) = b := by
  have hinj : Function.Injective (encBlock ws) := Function.LeftInverse.injective (decBlock_encBlock ws)
  obtain ⟨a, rfl⟩ := Finite.surjective_of_injective hinj b
  rw [decBlock_encBlock]

/-- Settles O57. DEC_BLOCK goes back through the states of ENC_BLOCK; the other way by counting blocks. -/
theorem cipherRoundTrip : Obligations.CipherRoundTrip :=
  fun ws b => ⟨decBlock_encBlock ws b, encBlock_decBlock ws b⟩

end Sys2Proof.Machine
end
